-- ==== Sys2Proof/Word.lean ====
section
/-! DEFINITION. The word types of the block's ports. Every value is an unsigned binary integer with bit 0 the least
significant bit (00_scope R9). -/

namespace Sys2Proof

/-- A command word `cmd[35:0]` (30_encoding R45). -/
abbrev CommandWord := BitVec 36

/-- The immediate operand `imm[31:0]` of a command word (30_encoding R45). -/
abbrev Imm := BitVec 32

/-- A response datum `rsp_data[31:0]` (30_encoding R52). -/
abbrev Datum := BitVec 32

end Sys2Proof
end

