-- ==== Sys2Proof/Syntax.lean ====
section
/-! DEFINITION. The ten commands of 30_encoding R48, one constructor per row of spec/opcode_table.json. -/

namespace Sys2Proof

/-- A command. Only `LOAD`, `LKDI` and `LKSI` have an operand; every other command ignores the whole `imm` field
(30_encoding R51), so its constructor has none. -/
inductive Instr where
  /-- `INIT` (41_engine R75). -/
  | init
  /-- `LOAD imm` (41_engine R76). -/
  | load (imm : Imm)
  /-- `GET` (41_engine R77). -/
  | get
  /-- `INC` (41_engine R78). -/
  | inc
  /-- `DEC` (41_engine R79). -/
  | dec
  /-- `SEQLEN` (41_engine R80). -/
  | seqlen
  /-- `LKD` (44_direct_index R105). -/
  | lkd
  /-- `LKDI imm` (44_direct_index R106). -/
  | lkdi (imm : Imm)
  /-- `LKS` (43_search_index R96). -/
  | lks
  /-- `LKSI imm` (43_search_index R97). -/
  | lksi (imm : Imm)
  deriving DecidableEq, Repr

end Sys2Proof
end

