-- ==== Sys2Proof/Decode.lean ====
section
/-! DEFINITION. Decoding of a command word and the encoder (30_encoding R45 to R59). Decoding looks at the opcode field
alone; whether an index is configured is checked by the meanings (30_encoding R50). -/

namespace Sys2Proof

/-- Why a word is no command. -/
inductive DecodeError where
  /-- The opcode is reserved: 0x0, 0x7, 0xC to 0xF (30_encoding R49). -/
  | reservedOp (op : BitVec 4)
  deriving DecidableEq, Repr

/-- `op = cmd[35:32]` (30_encoding R45). -/
def opField (w : CommandWord) : BitVec 4 := w.extractLsb' 32 4

/-- `imm = cmd[31:0]` (30_encoding R45). -/
def immField (w : CommandWord) : Imm := w.extractLsb' 0 32

/-- `{op, imm}` (30_encoding R55). -/
def assemble (op : BitVec 4) (imm : Imm) : CommandWord := op ++ imm

/-- The command a word stands for, or the reserved opcode it holds (30_encoding R48, R49). -/
def decode (w : CommandWord) : Except DecodeError Instr :=
  match (opField w).toNat with
  | 0x1 => .ok .init
  | 0x2 => .ok (.load (immField w))
  | 0x3 => .ok .get
  | 0x4 => .ok .inc
  | 0x5 => .ok .dec
  | 0x6 => .ok .seqlen
  | 0x8 => .ok .lkd
  | 0x9 => .ok (.lkdi (immField w))
  | 0xA => .ok .lks
  | 0xB => .ok (.lksi (immField w))
  | _ => .error (.reservedOp (opField w))

/-- The opcode of a command (30_encoding R48). -/
def opcode : Instr → BitVec 4
  | .init => 0x1#4
  | .load _ => 0x2#4
  | .get => 0x3#4
  | .inc => 0x4#4
  | .dec => 0x5#4
  | .seqlen => 0x6#4
  | .lkd => 0x8#4
  | .lkdi _ => 0x9#4
  | .lks => 0xA#4
  | .lksi _ => 0xB#4

/-- The `imm` field an assembler emits: the operand, and zero where there is none (30_encoding R51, R55). -/
def immOf : Instr → Imm
  | .init => 0#32
  | .load imm => imm
  | .get => 0#32
  | .inc => 0#32
  | .dec => 0#32
  | .seqlen => 0#32
  | .lkd => 0#32
  | .lkdi imm => imm
  | .lks => 0#32
  | .lksi imm => imm

/-- The word of a command (30_encoding R55). -/
def encode (i : Instr) : CommandWord := assemble (opcode i) (immOf i)

/-- The `match` column of the opcode map (30_encoding R48). -/
def tableMatch : Instr → CommandWord
  | .init => 0x100000000#36
  | .load _ => 0x200000000#36
  | .get => 0x300000000#36
  | .inc => 0x400000000#36
  | .dec => 0x500000000#36
  | .seqlen => 0x600000000#36
  | .lkd => 0x800000000#36
  | .lkdi _ => 0x900000000#36
  | .lks => 0xA00000000#36
  | .lksi _ => 0xB00000000#36

/-- The `mask` column of the opcode map, the same in every row (30_encoding R48). -/
def tableMask : CommandWord := 0xF00000000#36

/-- The command in the bits `w` of the opcode table's numbering. A command word is transferred whole (20_memory R34), so
there are no bytes to lay out: the word is `w` itself. A `w` with a bit above bit 35 is no command word, and is refused
(DESIGN CHOICE, log entry 13, safe). `nbits` is not needed, since bits above it are zero and there is one length. -/
def decodeTableWord (_nbits w : Nat) : Option Instr :=
  if w < 2 ^ 36 then (decode (BitVec.ofNat 36 w)).toOption else none

end Sys2Proof
end

