-- ==== Sys2Proof/Config.lean ====
section
/-! DEFINITION. The configuration record of 00_scope R5: the parameters an engine is elaborated with, fixed for its
lifetime. Nothing here is a free value: the spec leaves no value open (93_implementation_defined). -/

namespace Sys2Proof

/-- A configuration `cfg` (00_scope R5). Which records are well-formed is `Config.WellFormed` (00_scope R6). -/
structure Config where
  /-- `W`, the register width. -/
  W : Nat
  /-- `TAPS`, the tap positions, numbered from 1; the order carries no meaning (40_tap_mask_compiler R60). -/
  taps : List Nat
  /-- `HAS_DIRECT`: the Direct Index and its `REV` table are present. -/
  hasDirect : Bool
  /-- `HAS_SEARCH`: the Search Index and its `SPT` table are present. -/
  hasSearch : Bool
  /-- `SMIN`, where the sampled position range begins (meaningful when `HAS_SEARCH`). -/
  smin : Nat
  /-- `SMAX`, where the half-open sampled range ends (meaningful when `HAS_SEARCH`). -/
  smax : Nat
  /-- `SSTEP`, the stride of the samples (meaningful when `HAS_SEARCH`). -/
  sstep : Nat
  deriving DecidableEq, Repr

/-- DESIGN CHOICE (log entry 2), unsafe if a claim rests on it: the spec fixes no parameter value (00_scope R8), and
`State.reset` has to name one. This is the configuration of program P6 of 95_test_vectors.md, the one there in which all
ten commands are present. -/
def Config.sample : Config :=
  { W := 4, taps := [4, 3], hasDirect := true, hasSearch := true, smin := 2, smax := 11, sstep := 3 }

end Sys2Proof
end

