-- ==== Sys2Proof/Machine/State.lean ====
section
/-! DEFINITION. The state of an engine, the inputs its owner presents, its responses, and why a step can stop. -/

namespace Sys2Proof.Machine

/-- The status of a response (30_encoding R53). Code 3 is never produced and has no constructor
(93_implementation_defined U19). -/
inductive Status where
  /-- 0: the command did what its rule says. -/
  | ok
  /-- 1: a lookup found no position, a normal result (60_exceptions R120). -/
  | absent
  /-- 2: the command raised a fault or was refused by a faulted engine (60_exceptions R113, R114). -/
  | fault
  deriving DecidableEq, Repr

/-- The cause of a fault (60_exceptions R112). Code 3 is never used and has no constructor. -/
inductive Cause where
  /-- 1: the opcode is reserved or its index is not configured. -/
  | reservedOp
  /-- 2: an operand has a bit at or above bit W. -/
  | operandRange
  deriving DecidableEq, Repr

/-- A response `(status, data)` (30_encoding R52). -/
structure Response where
  status : Status
  data   : BitVec 32
  deriving DecidableEq, Repr

/-- What the owner does to the block between two steps: present a command word (30_encoding R57), or assert reset
(70_reset_and_hazards R127). -/
inductive Input where
  | command (w : BitVec 36)
  | reset
  deriving DecidableEq, Repr

/-- The architectural state of an engine of width `W`, the triple `(state, fault, fcause)` of 10_state R28, and nothing of
what 10_state R29 lists as not state. The effect of every command is a function of it and the configuration alone
(`Answer`, `command`, `transition`). -/
structure Arch (W : Nat) where
  /-- `state`, W bits (10_state R15). -/
  state : BitVec W
  /-- `fault`, 1 bit (10_state R18). -/
  fault : Bool
  /-- `fcause`, 2 bits (10_state R19). -/
  fcause : BitVec 2
  deriving DecidableEq, Repr

/-- An engine as the host's `step : State -> Outcome` needs it: its architectural state `arch`, and beside it the three
things that 00_scope R13 passes as arguments and result of a step and the host's type has no place for. 10_state R29 lists
those three as not state; no command reads `inputs` or `rsp` and no step changes `cfg` (log entries 1, 3, 4). -/
structure State where
  /-- The configuration the engine was elaborated with, the argument `cfg` of 00_scope R13. DESIGN CHOICE, log entry 1,
  safe. -/
  cfg : Config
  /-- The whole architectural state (10_state R28). -/
  arch : Arch cfg.W
  /-- What the owner presents, in order, next first: the argument `cmd` of 00_scope R13. DESIGN CHOICE, log entry 3, safe. -/
  inputs : List Input
  /-- The response port: what `rsp_status` and `rsp_data` show, none while `rsp_valid` is 0 (30_encoding R57); the result
  `rsp` of 00_scope R13. DESIGN CHOICE, log entry 4, safe. -/
  rsp : Option Response
  deriving DecidableEq, Repr

/-- Why an engine stops. It has no constructor, which is safe: no event stops this block (70_reset_and_hazards R140), and
a fault of the spec is a next state, in which the engine is faulted and has answered so (60_exceptions R113; log entry 5). -/
inductive Fault where
  deriving DecidableEq, Repr

/-- Why a step has no meaning. -/
inductive Refusal where
  /-- Raised by an arm of `exec` whose instruction has no meaning yet (safe). No arm raises it. -/
  | notModelled (mnemonic : String)
  /-- Raised by `elaborate` for a configuration that is not well-formed, and by `LKD` and `LKDI` where the `REV` slot they
  read does not exist, which happens in such a configuration only. Safe: the spec gives such a configuration no machine
  (00_scope R6, 42_table_builder R90; log entry 6). -/
  | illFormedConfiguration
  deriving DecidableEq, Repr

/-- The reset values: `state = 1`, `fault = 0`, `fcause = 0` (10_state R27, 70_reset_and_hazards R128). -/
def Arch.reset (W : Nat) : Arch W := { state := 1#W, fault := false, fcause := 0#2 }

/-- The engine of a configuration right after reset: the reset values, no response (70_reset_and_hazards R127), and no
command presented. -/
def State.resetOf (cfg : Config) : State :=
  { cfg := cfg, arch := Arch.reset cfg.W, inputs := [], rsp := none }

/-- The machine right after reset. Its configuration is a DESIGN CHOICE (log entry 2); every other field is as the spec
says. -/
def State.reset : State := State.resetOf Config.sample

end Sys2Proof.Machine
end

