-- ==== Sys2Proof/Machine/Flags.lean ====
section
/-! DEFINITION. The hardware has no flags (10_state R21). What stands in their place are the codes of the response status
and of the fault cause, and the outputs that mirror state (10_state R25). -/

namespace Sys2Proof.Machine

/-- `rsp_status` (30_encoding R53). -/
def Status.code : Status → BitVec 2
  | .ok => 0#2
  | .absent => 1#2
  | .fault => 2#2

/-- The cause code `fcause` takes (60_exceptions R112). -/
def Cause.code : Cause → BitVec 2
  | .reservedOp => 1#2
  | .operandRange => 2#2

/-- `state_o`, continuously equal to `state` (10_state R25). -/
def State.stateO (s : State) : BitVec s.cfg.W := s.arch.state

/-- `fault_o`, continuously equal to `fault` (10_state R25). -/
def State.faultO (s : State) : BitVec 1 := BitVec.ofBool s.arch.fault

/-- `rsp_valid` (30_encoding R57). -/
def State.rspValid (s : State) : BitVec 1 := BitVec.ofBool s.rsp.isSome

end Sys2Proof.Machine
end

