-- ==== Sys2Proof/Machine/Operands.lean ====
section
/-! DEFINITION. The operand form of the three commands that have one (30_encoding R47). The register form needs no
definition: the operand of `LKD` and `LKS` is `state` itself (30_encoding R46). -/

namespace Sys2Proof

/-- The state value `imm[W-1:0]`, or none where `W < 32` and `imm[31:W]` is not zero (30_encoding R47). -/
def Machine.operand (W : Nat) (imm : Imm) : Option (BitVec W) :=
  if W < 32 ∧ imm.extractLsb' W (32 - W) ≠ 0#(32 - W) then none else some (imm.setWidth W)

end Sys2Proof
end

