-- ==== Sys2Proof/Machine/Ops.lean ====
section
/-! DEFINITION. The operations every command is made of: writing the register, responding, taking a fault, refusing a
command while faulted, the checks of the dispatcher in their order (30_encoding R58), and reset. They act on the
architectural state alone; the last section puts what they answer into the host's `State`. -/

namespace Sys2Proof.Machine

/-- What `exec` and `step` answer. -/
abbrev Result := Host.Outcome State Fault Refusal

/-- What a command answers: `(s', rsp)` of 00_scope R13, the next triple and the response. None where the `REV` slot a
lookup reads does not exist, which is in no well-formed configuration (log entry 6). -/
abbrev Answer (W : Nat) := Option (Arch W × Response)

/-- A response `(OK, data)`. -/
def okResponse (data : BitVec 32) : Response := ⟨.ok, data⟩

/-- A response `(FAULT, zext_32(code))`. -/
def faultResponse (code : BitVec 2) : Response := ⟨.fault, code.setWidth 32⟩

/-! ## On the architectural state -/

/-- `state <- v` (00_scope R12). -/
def Arch.writeState {W : Nat} (a : Arch W) (v : BitVec W) : Arch W := { a with state := v }

/-- `respond(status, data)`, which ends a command (00_scope R12, 30_encoding R52). -/
def Arch.respond {W : Nat} (a : Arch W) (r : Response) : Answer W := some (a, r)

/-- Fault entry, `raise Fault(c)` (60_exceptions R113): `fault <- 1; fcause <- c; respond(FAULT, zext_32(c))`; `state` is
not changed. -/
def Arch.raiseFault {W : Nat} (a : Arch W) (c : Cause) : Answer W :=
  ({ a with fault := true, fcause := c.code } : Arch W).respond (faultResponse c.code)

/-- What a faulted engine does with any command (60_exceptions R114): it answers its cause and changes no register. -/
def Arch.refuseFaulted {W : Nat} (a : Arch W) : Answer W := a.respond (faultResponse a.fcause)

/-- Steps 1 and 2 of the dispatcher (30_encoding R58): a faulted engine refuses; a command whose opcode is not valid in
this configuration raises `RESERVED_OP`; otherwise the command goes on with `body`. -/
def Arch.dispatch {W : Nat} (a : Arch W) (valid : Bool) (body : Answer W) : Answer W :=
  if a.fault then a.refuseFaulted
  else if valid then body
  else a.raiseFault .reservedOp

/-- Step 3 of the dispatcher (30_encoding R58): an operand that does not fit raises `OPERAND_RANGE`; otherwise the command
goes on with the state value. -/
def Arch.withOperand {W : Nat} (a : Arch W) (imm : Imm) (body : BitVec W → Answer W) : Answer W :=
  match operand W imm with
  | some v => body v
  | none => a.raiseFault .operandRange

/-- A command word with a reserved opcode, whatever the word (30_encoding R49). -/
def reservedCommand {W : Nat} (a : Arch W) : Answer W := a.dispatch false none

/-! ## On the host's state -/

/-- A command's answer, put where the host's `step` can show it: the triple in `arch`, the response on the port. -/
def State.deliver (s : State) (o : Answer s.cfg.W) : Result :=
  match o with
  | some (a, r) => .next { s with arch := a, rsp := some r }
  | none => .refused .illFormedConfiguration

/-- A command word with a reserved opcode (30_encoding R49). -/
def execReserved (s : State) : Result := s.deliver (reservedCommand s.arch)

/-- Reset (70_reset_and_hazards R127, R128), the only way out of the faulted state (60_exceptions R116). There is no return
from a fault beside it. No response is produced; the configuration is no register and stays. -/
def State.resetRegisters (s : State) : State := { s with arch := Arch.reset s.cfg.W, rsp := none }

/-- No command is presented: the registers hold, and no response stands on the port (60_exceptions R126, 30_encoding R57). -/
def State.idle (s : State) : State := { s with rsp := none }

/-- The input at the head has been taken. -/
def State.takeInput (s : State) (rest : List Input) : State := { s with inputs := rest }

end Sys2Proof.Machine
end

