-- ==== Sys2Proof/Machine/TapMask.lean ====
section
/-! DEFINITION. The Tap Mask Compiler (40_tap_mask_compiler) and the constants derived from a configuration
(00_scope R7). All are pure functions of the configuration and none is state. -/

namespace Sys2Proof

/-- ForwardMask: the bitwise OR over the taps of `1 << (tap - 1)` (40_tap_mask_compiler R60). -/
def Machine.fwdMaskOf (W : Nat) (taps : List Nat) : BitVec W :=
  taps.foldr (fun t m => (1#W <<< (t - 1)) ||| m) 0#W

/-- InverseMask: `trunc_W(FWD_MASK << 1) | FWD_MASK[W-1]`, a rotation by one within W bits (40_tap_mask_compiler R61). -/
def Machine.invMaskOf {W : Nat} (fwd : BitVec W) : BitVec W :=
  (fwd <<< 1) ||| (BitVec.ofBool (fwd.getLsbD (W - 1))).setWidth W

/-- `FWD_MASK` (00_scope R7). -/
def Config.fwdMask (cfg : Config) : BitVec cfg.W := Machine.fwdMaskOf cfg.W cfg.taps

/-- `INV_MASK` (00_scope R7). -/
def Config.invMask (cfg : Config) : BitVec cfg.W := Machine.invMaskOf cfg.fwdMask

/-- `SEQ_LEN = 2^W - 1`, a function of `W` alone (00_scope R7, 90_conflicts C5). -/
def Config.seqLen (cfg : Config) : Nat := 2 ^ cfg.W - 1

/-- `SENTINEL`, the W-bit all-ones value in slot 0 of the reverse table (00_scope R7). -/
def Config.sentinel (cfg : Config) : BitVec cfg.W := BitVec.allOnes cfg.W

/-- `NSAMP = ceil((SMAX - SMIN) / SSTEP)`, the number of sparse samples (00_scope R7). -/
def Config.nsamp (cfg : Config) : Nat := (cfg.smax - cfg.smin + cfg.sstep - 1) / cfg.sstep

/-- `WEND = SMIN + NSAMP * SSTEP`, where the effective window of the Search Index ends (43_search_index R100). -/
def Config.wend (cfg : Config) : Nat := cfg.smin + cfg.nsamp * cfg.sstep

/-- `RESET_STATE`, the canonical start state 1 (00_scope R7). -/
def Config.resetState (cfg : Config) : BitVec cfg.W := 1#cfg.W

/-- The literal formula of the source for the inverse mask, computed without truncation in `W + 1` bits
(40_tap_mask_compiler R62). Not hardware: it is here to be compared with `invMaskOf`. -/
def Machine.invLitOf {W : Nat} (fwd : BitVec W) : BitVec (W + 1) :=
  (fwd.setWidth (W + 1) <<< 1) ||| ((fwd.setWidth (W + 1) >>> (W - 1)) &&& 1#(W + 1))

/-- The informative tap sets of 40_tap_mask_compiler R66, one per width. PRESUMED (log entry 14), safe: from general
knowledge, not the repository's data; no rule and no definition of the machine uses them. -/
def Machine.informativeTaps : List (Nat × List Nat) :=
  [(2, [2, 1]), (3, [3, 2]), (4, [4, 3]), (5, [5, 3]), (6, [6, 5]), (7, [7, 6]), (8, [8, 6, 5, 4]), (9, [9, 5]),
   (10, [10, 7]), (11, [11, 9]), (12, [12, 6, 4, 1]), (13, [13, 4, 3, 1]), (14, [14, 5, 3, 1]), (15, [15, 14]),
   (16, [16, 15, 13, 4]), (17, [17, 14]), (18, [18, 11]), (19, [19, 6, 2, 1]), (20, [20, 17]), (21, [21, 19]),
   (22, [22, 21]), (23, [23, 18]), (24, [24, 23, 22, 17]), (25, [25, 22]), (26, [26, 6, 2, 1]), (27, [27, 5, 2, 1]),
   (28, [28, 25]), (29, [29, 27]), (30, [30, 6, 4, 1]), (31, [31, 28]), (32, [32, 22, 2, 1])]

end Sys2Proof
end

