-- ==== Sys2Proof/Machine/Transition.lean ====
section
/-! DEFINITION. The transition functions of the LFSR Engine (41_engine section 1). Each is stated for any width and any
mask, and then for a configuration with its own masks. -/

namespace Sys2Proof

/-- `up(s) = (s >> 1) ^ (s[0] = 1 ? FWD_MASK : 0)` (41_engine R67). -/
def Machine.up {W : Nat} (fwd s : BitVec W) : BitVec W :=
  (s >>> 1) ^^^ (if s.getLsbD 0 then fwd else 0#W)

/-- `down(s) = trunc_W(s << 1) ^ (s[W-1] = 1 ? INV_MASK : 0)` (41_engine R68). -/
def Machine.down {W : Nat} (inv s : BitVec W) : BitVec W :=
  (s <<< 1) ^^^ (if s.getLsbD (W - 1) then inv else 0#W)

/-- `StateAt(p) = up^p(1)`, the state `p` forward steps from the canonical start state (41_engine R81). -/
def Machine.stateAt {W : Nat} (fwd : BitVec W) (p : Nat) : BitVec W := (Machine.up fwd)^[p] 1#W

/-- `up` of a configuration. -/
def Config.up (cfg : Config) (s : BitVec cfg.W) : BitVec cfg.W := Machine.up cfg.fwdMask s

/-- `down` of a configuration. -/
def Config.down (cfg : Config) (s : BitVec cfg.W) : BitVec cfg.W := Machine.down cfg.invMask s

/-- `StateAt` of a configuration. -/
def Config.stateAt (cfg : Config) (p : Nat) : BitVec cfg.W := Machine.stateAt cfg.fwdMask p

/-- The source's forward step in its 32-bit container (41_engine R74). Not hardware: it is here to be compared with `up`. -/
def Machine.up32 {W : Nat} (fwd : BitVec W) (s : BitVec 32) : BitVec 32 :=
  (s >>> 1) ^^^ (if s.getLsbD 0 then fwd.setWidth 32 else 0#32)

/-- The source's backward step in its 32-bit container, with the untruncated mask (41_engine R74). Not hardware: it is
here to be compared with `down`. -/
def Machine.down32 {W : Nat} (fwd : BitVec W) (s : BitVec 32) : BitVec 32 :=
  (s <<< 1) ^^^ (if s.getLsbD (W - 1) then (Machine.invLitOf fwd).setWidth 32 else 0#32)

end Sys2Proof
end

