-- ==== Sys2Proof/Machine/TableBuilder.lean ====
section
/-! DEFINITION. The Table Builder (42_table_builder): the contents of the two read-only tables and the cycle-completeness
check, as pure functions of the configuration, and the reads of the two table spaces (20_memory R30, R31). -/

namespace Sys2Proof

/-- One entry of the sparse table: a 32-bit position and the W-bit state there (20_memory R31). -/
structure Sample (W : Nat) where
  pos : BitVec 32
  st  : BitVec W
  deriving DecidableEq, Repr

/-- Why an exhaustive walk fails (42_table_builder R88). -/
inductive WalkFailure where
  /-- FAIL(repeat, p, x): the state `x` reached at position `p` was recorded before. -/
  | repeated (p x : Nat)
  /-- FAIL(no_return, x): the state after `SEQ_LEN` steps is `x`, not 1. -/
  | noReturn (x : Nat)
  deriving DecidableEq, Repr

/-! ## Sparse sampling -/

/-- The sampling walk (42_table_builder R84), with `x` the state at position `p` and `i` the next sample's index. `fuel`
bounds the samples still to be taken. -/
def Machine.sampleFrom {W : Nat} (fwd : BitVec W) (smin smax sstep : Nat) : (fuel i p : Nat) → BitVec W → List (Sample W)
  | 0, _, _, _ => []
  | fuel + 1, i, p, x =>
    if smin + i * sstep < smax then
      let y := (Machine.up fwd)^[smin + i * sstep - p] x
      ⟨BitVec.ofNat 32 (smin + i * sstep), y⟩ ::
        Machine.sampleFrom fwd smin smax sstep fuel (i + 1) (smin + i * sstep) y
    else []

/-- `SPT`, the sparse table, in index order (42_table_builder R84): the walk from state 1 at position 0. With a stride of at
least 1 the walk records fewer than `SMAX + 1` samples, so the fuel never ends it. -/
def Config.spt (cfg : Config) : List (Sample cfg.W) :=
  Machine.sampleFrom cfg.fwdMask cfg.smin cfg.smax cfg.sstep cfg.smax 0 0 1#cfg.W

/-! ## Exhaustive walk -/

/-- `n` records `(position, state)` of the walk that stands at state `x`, position `p` (42_table_builder R88). -/
def Machine.recordsFrom {W : Nat} (fwd : BitVec W) : (n p : Nat) → BitVec W → List (Nat × BitVec W)
  | 0, _, _ => []
  | n + 1, p, x => (p, x) :: Machine.recordsFrom fwd n (p + 1) (Machine.up fwd x)

/-- The list `rec` of a walk that does not fail (42_table_builder R88). -/
def Config.walkRecords (cfg : Config) : List (Nat × BitVec cfg.W) :=
  Machine.recordsFrom cfg.fwdMask cfg.seqLen 0 1#cfg.W

/-- The exhaustive walk with its two failures (42_table_builder R88); `seen` holds the records so far, latest first. -/
def Machine.walkFrom {W : Nat} (fwd : BitVec W) :
    (n p : Nat) → BitVec W → List (Nat × BitVec W) → Except WalkFailure (List (Nat × BitVec W))
  | 0, _, x, seen => if x = 1#W then .ok seen.reverse else .error (.noReturn x.toNat)
  | n + 1, p, x, seen =>
    if seen.any (fun e => e.2 == x) then .error (.repeated p x.toNat)
    else Machine.walkFrom fwd n (p + 1) (Machine.up fwd x) ((p, x) :: seen)

/-- The exhaustive walk of a configuration (42_table_builder R88). -/
def Config.exhaustiveWalk (cfg : Config) : Except WalkFailure (List (Nat × BitVec cfg.W)) :=
  Machine.walkFrom cfg.fwdMask cfg.seqLen 0 1#cfg.W []

/-- Cycle-completeness as 42_table_builder R89 defines it: (a) the first `SEQ_LEN` states are pairwise distinct, and (b)
the state after `SEQ_LEN` steps is 1. -/
def Config.CycleComplete (cfg : Config) : Prop :=
  (∀ i j, i < j → j < cfg.seqLen → cfg.stateAt i ≠ cfg.stateAt j) ∧ cfg.stateAt cfg.seqLen = 1#cfg.W

/-- Whether the walk at state `x` returns to 1 after exactly `n` more steps and not before. -/
def Machine.returnsAfter {W : Nat} (fwd : BitVec W) : (n : Nat) → BitVec W → Bool
  | 0, x => x == 1#W
  | n + 1, x => !(x == 1#W) && Machine.returnsAfter fwd n (Machine.up fwd x)

/-- The cycle-completeness check in one walk: the first return to state 1 is at step `SEQ_LEN`. DEDUCED (log entry 12),
safe: 42_table_builder R89 compares every pair of states, and a walk that is back at 1 after `SEQ_LEN` steps repeats no
state before exactly when it does not pass 1 before. -/
def Config.cycleCheck (cfg : Config) : Bool :=
  Machine.returnsAfter cfg.fwdMask (cfg.seqLen - 1) (cfg.up 1#cfg.W)

/-- `REV[a]` (42_table_builder R91): the sentinel in slot 0, and in slot `a` the position the walk recorded for `a`. No
value stands in a slot whose state the walk does not record, a slot no well-formed configuration has (90_conflicts C7). -/
def Config.rev (cfg : Config) (a : BitVec cfg.W) : Option (BitVec cfg.W) :=
  if a = 0#cfg.W then some cfg.sentinel
  else (cfg.walkRecords.find? (fun e => e.2 == a)).map (fun e => BitVec.ofNat cfg.W e.1)

/-! ## The two table spaces -/

/-- `MemRead(REV, a)` (20_memory R30): the space exists exactly when `HAS_DIRECT`. -/
def Config.readRev (cfg : Config) (a : BitVec cfg.W) : Option (BitVec cfg.W) :=
  if cfg.hasDirect then cfg.rev a else none

/-- The `SPT` space in index order (20_memory R31): it exists exactly when `HAS_SEARCH`. -/
def Config.sptSpace (cfg : Config) : List (Sample cfg.W) :=
  if cfg.hasSearch then cfg.spt else []

/-- `MemRead(SPT, i)` (20_memory R31): none at or above `NSAMP`. -/
def Config.readSpt (cfg : Config) (i : Nat) : Option (Sample cfg.W) := cfg.sptSpace[i]?

end Sys2Proof
end

