-- ==== Sys2Proof/Machine/DirectIndex.lean ====
section
/-! DEFINITION. The Direct Index: the lookup function, and `LKD` and `LKDI` (44_direct_index). -/

namespace Sys2Proof.Machine

/-- `DirectLookup(q)` (44_direct_index R104): one table read; `(ABSENT, zext_32(SENTINEL))` for the sentinel and
`(OK, zext_32(w))` for a position. None where the slot does not exist, which is in no well-formed configuration. -/
def directLookup (cfg : Config) (q : BitVec cfg.W) : Option Response :=
  (cfg.readRev q).map fun w =>
    if w = cfg.sentinel then ⟨.absent, cfg.sentinel.setWidth 32⟩ else ⟨.ok, w.setWidth 32⟩

/-- `respond(DirectLookup(q))` (44_direct_index R105, R106). A configuration whose `REV` lacks the slot has no machine, and
the command has no answer (42_table_builder R90, 93_implementation_defined U2; log entry 6). -/
def respondDirect (cfg : Config) (a : Arch cfg.W) (q : BitVec cfg.W) : Answer cfg.W :=
  match directLookup cfg q with
  | some r => a.respond r
  | none => none

/-- `LKD` (44_direct_index R105): `respond(DirectLookup(state))`; valid only when `HAS_DIRECT`. -/
def lkdCommand (cfg : Config) (a : Arch cfg.W) : Answer cfg.W :=
  a.dispatch cfg.hasDirect (respondDirect cfg a a.state)

/-- The meaning of `LKD`. -/
def execLkd (s : State) : Result := s.deliver (lkdCommand s.cfg s.arch)

/-- `LKDI imm` (44_direct_index R106): `respond(DirectLookup(imm[W-1:0]))`, or `OPERAND_RANGE`; valid only when
`HAS_DIRECT`. -/
def lkdiCommand (cfg : Config) (imm : Imm) (a : Arch cfg.W) : Answer cfg.W :=
  a.dispatch cfg.hasDirect (a.withOperand imm fun v => respondDirect cfg a v)

/-- The meaning of `LKDI`. -/
def execLkdi (imm : Imm) (s : State) : Result := s.deliver (lkdiCommand s.cfg imm s.arch)

end Sys2Proof.Machine
end

