-- ==== Sys2Proof/Machine/Engine.lean ====
section
/-! DEFINITION. The six engine commands (41_engine section 2): what each answers from the triple, and its
meaning in the host's state. -/

namespace Sys2Proof.Machine

/-- `INIT` (41_engine R75): `state <- 1; respond(OK, 0)`. -/
def initCommand (cfg : Config) (a : Arch cfg.W) : Answer cfg.W :=
  a.dispatch true ((a.writeState cfg.resetState).respond (okResponse 0#32))

/-- The meaning of `INIT`. -/
def execInit (s : State) : Result := s.deliver (initCommand s.cfg s.arch)

/-- `LOAD imm` (41_engine R76): `state <- imm[W-1:0]; respond(OK, 0)`, or `OPERAND_RANGE`. -/
def loadCommand (cfg : Config) (imm : Imm) (a : Arch cfg.W) : Answer cfg.W :=
  a.dispatch true (a.withOperand imm fun v => (a.writeState v).respond (okResponse 0#32))

/-- The meaning of `LOAD`. -/
def execLoad (imm : Imm) (s : State) : Result := s.deliver (loadCommand s.cfg imm s.arch)

/-- `GET` (41_engine R77): `respond(OK, zext_32(state))`. -/
def getCommand (cfg : Config) (a : Arch cfg.W) : Answer cfg.W :=
  a.dispatch true (a.respond (okResponse (a.state.setWidth 32)))

/-- The meaning of `GET`. -/
def execGet (s : State) : Result := s.deliver (getCommand s.cfg s.arch)

/-- `INC` (41_engine R78): `state <- up(state); respond(OK, 0)`. -/
def incCommand (cfg : Config) (a : Arch cfg.W) : Answer cfg.W :=
  a.dispatch true ((a.writeState (cfg.up a.state)).respond (okResponse 0#32))

/-- The meaning of `INC`. -/
def execInc (s : State) : Result := s.deliver (incCommand s.cfg s.arch)

/-- `DEC` (41_engine R79): `state <- down(state); respond(OK, 0)`. -/
def decCommand (cfg : Config) (a : Arch cfg.W) : Answer cfg.W :=
  a.dispatch true ((a.writeState (cfg.down a.state)).respond (okResponse 0#32))

/-- The meaning of `DEC`. -/
def execDec (s : State) : Result := s.deliver (decCommand s.cfg s.arch)

/-- `SEQLEN` (41_engine R80): `respond(OK, zext_32(SEQ_LEN))`. -/
def seqlenCommand (cfg : Config) (a : Arch cfg.W) : Answer cfg.W :=
  a.dispatch true (a.respond (okResponse (BitVec.ofNat 32 cfg.seqLen)))

/-- The meaning of `SEQLEN`. -/
def execSeqlen (s : State) : Result := s.deliver (seqlenCommand s.cfg s.arch)

end Sys2Proof.Machine
end

