-- ==== Sys2Proof/Machine/SearchIndex.lean ====
section
/-! DEFINITION. The Search Index: the lookup function, and `LKS` and `LKSI` (43_search_index). -/

namespace Sys2Proof.Machine

/-- The loop of `SearchLookup` (43_search_index R95) from offset `o` on, with `n` offsets to go and candidate `c`. Within one
offset the samples are tested in increasing index order and the first equality ends the lookup (R98). -/
def searchFrom {W : Nat} (inv : BitVec W) (table : List (Sample W)) : (n o : Nat) → BitVec W → Option Nat
  | 0, _, _ => none
  | n + 1, o, c =>
    match table.find? (fun e => c == e.st) with
    | some e => some (e.pos.toNat + o)
    | none => searchFrom inv table n (o + 1) (down inv c)

/-- The position `SearchLookup(q)` finds, an exact sum of a sample's position and an offset (43_search_index R95). -/
def searchPosition (cfg : Config) (q : BitVec cfg.W) : Option Nat :=
  searchFrom cfg.invMask cfg.sptSpace cfg.sstep 0 q

/-- `SearchLookup(q)` (43_search_index R95): `(OK, r)`, or `(ABSENT, 0)`. -/
def searchLookup (cfg : Config) (q : BitVec cfg.W) : Response :=
  match searchPosition cfg q with
  | some r => ⟨.ok, BitVec.ofNat 32 r⟩
  | none => ⟨.absent, 0#32⟩

/-- `LKS` (43_search_index R96): `respond(SearchLookup(state))`; valid only when `HAS_SEARCH`. -/
def lksCommand (cfg : Config) (a : Arch cfg.W) : Answer cfg.W :=
  a.dispatch cfg.hasSearch (a.respond (searchLookup cfg a.state))

/-- The meaning of `LKS`. -/
def execLks (s : State) : Result := s.deliver (lksCommand s.cfg s.arch)

/-- `LKSI imm` (43_search_index R97): `respond(SearchLookup(imm[W-1:0]))`, or `OPERAND_RANGE`; valid only when
`HAS_SEARCH`. -/
def lksiCommand (cfg : Config) (imm : Imm) (a : Arch cfg.W) : Answer cfg.W :=
  a.dispatch cfg.hasSearch (a.withOperand imm fun v => a.respond (searchLookup cfg v))

/-- The meaning of `LKSI`. -/
def execLksi (imm : Imm) (s : State) : Result := s.deliver (lksiCommand s.cfg imm s.arch)

end Sys2Proof.Machine
end

