-- ==== Sys2Proof/Machine/Dispatch.lean ====
section
/-! DEFINITION. Which meaning each command has (30_encoding R48). -/

namespace Sys2Proof.Machine

/-- One command, decoded: the whole of 30_encoding R58 for it. -/
def exec (i : Instr) (s : State) : Host.Outcome State Fault Refusal :=
  match i with
  | .init => Sys2Proof.Machine.execInit s
  | .load imm => Sys2Proof.Machine.execLoad imm s
  | .get => Sys2Proof.Machine.execGet s
  | .inc => Sys2Proof.Machine.execInc s
  | .dec => Sys2Proof.Machine.execDec s
  | .seqlen => Sys2Proof.Machine.execSeqlen s
  | .lkd => Sys2Proof.Machine.execLkd s
  | .lkdi imm => Sys2Proof.Machine.execLkdi imm s
  | .lks => Sys2Proof.Machine.execLks s
  | .lksi imm => Sys2Proof.Machine.execLksi imm s

end Sys2Proof.Machine
end

