-- ==== Sys2Proof/Machine/Step.lean ====
section
/-! DEFINITION. One step: the owner's next input, taken whole (00_scope R13, 20_memory R40). -/

namespace Sys2Proof.Machine

/-- The next step of an engine. With nothing presented it holds its registers (60_exceptions R126); a reset takes the
reset values (70_reset_and_hazards R127); a command word is decoded and executed, or is reserved (30_encoding R58). -/
def step (s : State) : Host.Outcome State Fault Refusal :=
  match s.inputs with
  | [] => .next s.idle
  | .reset :: rest => .next (s.takeInput rest).resetRegisters
  | .command w :: rest =>
    match decode w with
    | .ok i => exec i (s.takeInput rest)
    | .error _ => execReserved (s.takeInput rest)

/-- The owner presents the command word whose bits are `w` next, before what it was to present. -/
def State.withFetchWord (s : State) (_nbits w : Nat) : State :=
  { s with inputs := .command (BitVec.ofNat 36 w) :: s.inputs }

end Sys2Proof.Machine
end

