-- ==== Sys2Proof/Machine/Command.lean ====
section
/-! DEFINITION. The transition of 00_scope R13 as the spec writes it, `step(cfg, s, cmd) = (s', rsp)` with `s` the triple of
10_state R28: the configuration and the command word are arguments, the response is a result, and none of them is a field
(10_state R29). `exec` and `step` are this function in the form the host fixes. -/

namespace Sys2Proof.Machine

/-- What a decoded command answers from the triple. -/
def command (cfg : Config) (i : Instr) (a : Arch cfg.W) : Answer cfg.W :=
  match i with
  | .init => initCommand cfg a
  | .load imm => loadCommand cfg imm a
  | .get => getCommand cfg a
  | .inc => incCommand cfg a
  | .dec => decCommand cfg a
  | .seqlen => seqlenCommand cfg a
  | .lkd => lkdCommand cfg a
  | .lkdi imm => lkdiCommand cfg imm a
  | .lks => lksCommand cfg a
  | .lksi imm => lksiCommand cfg imm a

/-- `step(cfg, s, cmd) = (s', rsp)` (00_scope R13): the command word, decoded, or reserved (30_encoding R58). -/
def transition (cfg : Config) (a : Arch cfg.W) (cmd : CommandWord) : Answer cfg.W :=
  match decode cmd with
  | .ok i => command cfg i a
  | .error _ => reservedCommand a

end Sys2Proof.Machine
end

