-- ==== Sys2Proof/WellFormed.lean ====
section
/-! DEFINITION. Which configurations have a machine (00_scope R6), and which commands an owner may present to one without
a fault (30_encoding R47, R50). -/

namespace Sys2Proof

/-- WF1: `2 <= W <= 32`. -/
def Config.wf1 (cfg : Config) : Bool := decide (2 ≤ cfg.W ∧ cfg.W ≤ 32)

/-- WF2: `TAPS` is nonempty and within `[1, W]`; the positions are distinct (00_scope R5). -/
def Config.wf2 (cfg : Config) : Bool :=
  !cfg.taps.isEmpty && cfg.taps.all (fun t => decide (1 ≤ t ∧ t ≤ cfg.W)) && decide cfg.taps.Nodup

/-- WF3: the constraints on the sampling range and stride, where there is a Search Index. -/
def Config.wf3 (cfg : Config) : Bool :=
  !cfg.hasSearch ||
    decide (1 ≤ cfg.sstep ∧ cfg.smin ≤ cfg.smax ∧ cfg.smax ≤ cfg.seqLen ∧ cfg.wend ≤ 2 ^ 32)

/-- WF4: the cycle-completeness check passes, where there is a Direct Index. -/
def Config.wf4 (cfg : Config) : Bool := !cfg.hasDirect || cfg.cycleCheck

/-- The checks made at elaboration. -/
def Config.wf (cfg : Config) : Bool := cfg.wf1 && cfg.wf2 && cfg.wf3 && cfg.wf4

/-- A well-formed configuration, in the words of 00_scope R6. -/
structure Config.WellFormed (cfg : Config) : Prop where
  wf1 : 2 ≤ cfg.W ∧ cfg.W ≤ 32
  wf2 : cfg.taps ≠ [] ∧ (∀ t ∈ cfg.taps, 1 ≤ t ∧ t ≤ cfg.W) ∧ cfg.taps.Nodup
  wf3 : cfg.hasSearch = true →
    1 ≤ cfg.sstep ∧ cfg.smin ≤ cfg.smax ∧ cfg.smax ≤ cfg.seqLen ∧ cfg.wend ≤ 2 ^ 32
  wf4 : cfg.hasDirect = true → cfg.CycleComplete

/-- The index a command needs is configured (30_encoding R50). -/
def Instr.present (cfg : Config) : Instr → Bool
  | .init => true
  | .load _ => true
  | .get => true
  | .inc => true
  | .dec => true
  | .seqlen => true
  | .lkd => cfg.hasDirect
  | .lkdi _ => cfg.hasDirect
  | .lks => cfg.hasSearch
  | .lksi _ => cfg.hasSearch

/-- The operand of a command fits in W bits (30_encoding R47); a command without one has nothing to fit. -/
def Instr.operandFits (cfg : Config) : Instr → Bool
  | .init => true
  | .load imm => (Machine.operand cfg.W imm).isSome
  | .get => true
  | .inc => true
  | .dec => true
  | .seqlen => true
  | .lkd => true
  | .lkdi imm => (Machine.operand cfg.W imm).isSome
  | .lks => true
  | .lksi imm => (Machine.operand cfg.W imm).isSome

/-- A command that raises no fault in a configuration, which is what 70_reset_and_hazards R136 tells an owner to check
before presenting it. Every command, this or not, has an encoding. -/
def Instr.wf (cfg : Config) (i : Instr) : Bool := i.present cfg && i.operandFits cfg

end Sys2Proof
end

