-- ==== Sys2Proof/Machine/Run.lean ====
section
/-! DEFINITION. Elaboration (42_table_builder R83, R90) and runs (70_reset_and_hazards R140). -/

namespace Sys2Proof.Machine

/-- Elaboration: a well-formed configuration gives the engine right after reset; any other has no machine and is refused
(00_scope R6, 60_exceptions R119). -/
def elaborate (cfg : Config) : Result :=
  if cfg.wf then .next (State.resetOf cfg) else .refused .illFormedConfiguration

/-- The engine with one input presented and nothing after it. -/
def State.presented (s : State) (inp : Input) : State := { s with inputs := [inp] }

/-- A run (70_reset_and_hazards R140): the inputs applied in order, one step each; its result is the final engine and the
list of responses. A reset gives no response (R127). -/
def runInputs : List Input → State → Host.Outcome (State × List Response) Fault Refusal
  | [], s => .next (s, [])
  | inp :: rest, s =>
    match step (s.presented inp) with
    | .next t =>
      match runInputs rest t with
      | .next (u, rs) => .next (u, t.rsp.toList ++ rs)
      | .fault f => .fault f
      | .refused r => .refused r
    | .fault f => .fault f
    | .refused r => .refused r

/-- A run on the triple alone (70_reset_and_hazards R140), each command word an argument of `transition` and each response
a result. `runInputs` is this run in the host's state. -/
def runTriple (cfg : Config) : List Input → Arch cfg.W → Option (Arch cfg.W × List Response)
  | [], a => some (a, [])
  | .reset :: rest, _ => runTriple cfg rest (Arch.reset cfg.W)
  | .command w :: rest, a =>
    match transition cfg a w with
    | some (b, r) => (runTriple cfg rest b).map fun e => (e.1, r :: e.2)
    | none => none

end Sys2Proof.Machine
end

