-- ==== Sys2Proof/Safety.lean ====
section
/-! DEFINITION. What counts as a safe engine and a safe run, and the invariant of every reachable engine. -/

namespace Sys2Proof.Machine

/-- A safe engine: `fault = 0`, the premise every claim about a command sequence takes (60_exceptions R117). -/
def State.Safe (s : State) : Prop := s.arch.fault = false

/-- The invariant of a reachable engine: its configuration is well-formed (00_scope R6); `fault = 0` exactly when
`fcause = 0`, and cause 3 is never written (10_state R19); at width 32 cause 2 is not reachable (10_state R28). -/
structure State.Inv (s : State) : Prop where
  wellFormed : s.cfg.WellFormed
  faultIffCause : s.arch.fault = false ↔ s.arch.fcause = 0#2
  causeNotThree : s.arch.fcause ≠ 3#2
  noRangeAt32 : s.cfg.W = 32 → s.arch.fcause ≠ 2#2

/-- An engine some run of some inputs reaches from reset (70_reset_and_hazards R140). -/
def State.Reachable (cfg : Config) (t : State) : Prop :=
  ∃ ins rs, runInputs ins (State.resetOf cfg) = .next (t, rs)

/-- A run a claim may call successful (60_exceptions R117): it starts on an engine that is not faulted, no response of it
is `FAULT` (60_exceptions R111), and its final engine is not faulted. That no response before a reset inside the run is
`FAULT` either is DEDUCED (log entry 5), safe: R117 names the final state alone. -/
def SafeRun (ins : List Input) (s : State) : Prop :=
  s.Safe ∧ ∃ t rs, runInputs ins s = .next (t, rs) ∧ t.Safe ∧ ∀ r ∈ rs, r.status ≠ .fault

end Sys2Proof.Machine
end

