-- ==== Sys2Proof/Certificates/Slice0/Obligations.lean ====
section
/-! DEFINITION. The statements for the provers. Each formalises the rules its docstring names. Every one quantifies over
the configuration, so none rests on the one `State.reset` carries, but for a clause that says so. -/

open Sys2Proof Sys2Proof.Machine

/-! ## Reset and the engine commands -/

/-- 10_state R27, 70_reset_and_hazards R128: the values reset leaves; reset takes any engine there, in whatever state it
is, and neither touches the configuration nor answers; a direct lookup after reset reports position 0. -/
def Obligations.ResetLeavesTheSpecValues : Prop :=
  (∀ cfg : Config, (State.resetOf cfg).arch.state = 1#cfg.W ∧ (State.resetOf cfg).arch.fault = false ∧
    (State.resetOf cfg).arch.fcause = 0#2 ∧ (State.resetOf cfg).cfg = cfg ∧ (State.resetOf cfg).rsp = none) ∧
  (∀ (s : State) (rest : List Input), s.inputs = .reset :: rest →
    step s = .next { s with arch.state := 1#s.cfg.W, arch.fault := false, arch.fcause := 0#2, inputs := rest, rsp := none }) ∧
  (∀ cfg : Config, cfg.WellFormed → cfg.hasDirect = true →
    cfg.stateAt 0 = (State.resetOf cfg).arch.state ∧ directLookup cfg (State.resetOf cfg).arch.state = some ⟨.ok, 0#32⟩)

/-- 41_engine R75, 70_reset_and_hazards R129: `INIT` writes 1 and answers `(OK, 0)`; it is `LOAD 1`; while faulted both are
refused; reset leaves the same register value but clears the fault and answers nothing. Any `imm` is `INIT`. -/
def Obligations.InitWritesOneAsLoadOneAndResetDo : Prop :=
  (∀ s : State, s.arch.fault = false →
    exec .init s = .next { s with arch.state := 1#s.cfg.W, rsp := some ⟨.ok, 0#32⟩ }) ∧
  (∀ s : State, s.arch.fault = false → 2 ≤ s.cfg.W → exec (.load 1#32) s = exec .init s) ∧
  (∀ s : State, s.arch.fault = true →
    exec .init s = .next { s with rsp := some ⟨.fault, s.arch.fcause.setWidth 32⟩ } ∧
    exec (.load 1#32) s = .next { s with rsp := some ⟨.fault, s.arch.fcause.setWidth 32⟩ }) ∧
  (∀ (s : State) (rest : List Input), s.inputs = .reset :: rest →
    ∃ t, step s = .next t ∧ t.arch.state = 1#t.cfg.W ∧ t.arch.fault = false ∧ t.arch.fcause = 0#2 ∧ t.rsp = none) ∧
  (∀ imm : Imm, decode (assemble 0x1#4 imm) = .ok .init)

/-- 41_engine R76: `LOAD` writes an operand below `2^W` and answers `(OK, 0)`; any other raises `OPERAND_RANGE` and the
register keeps its value. -/
def Obligations.LoadWritesAnOperandThatFits : Prop :=
  (∀ (imm : Imm) (s : State), s.arch.fault = false → imm.toNat < 2 ^ s.cfg.W →
    exec (.load imm) s = .next { s with arch.state := imm.setWidth s.cfg.W, rsp := some ⟨.ok, 0#32⟩ } ∧
    (imm.setWidth s.cfg.W).toNat = imm.toNat) ∧
  (∀ (imm : Imm) (s : State), s.arch.fault = false → 2 ^ s.cfg.W ≤ imm.toNat →
    exec (.load imm) s = .next { s with arch.fault := true, arch.fcause := 2#2, rsp := some ⟨.fault, 2#32⟩ }) ∧
  (∀ imm : Imm, decode (assemble 0x2#4 imm) = .ok (.load imm))

/-- 41_engine R77: `GET` answers the register widened with zeros, and changes no register. -/
def Obligations.GetAnswersTheRegister : Prop :=
  (∀ s : State, s.arch.fault = false →
    exec .get s = .next { s with rsp := some ⟨.ok, s.arch.state.setWidth 32⟩ }) ∧
  (∀ (s : State) (k : Nat), s.cfg.W ≤ k → (s.arch.state.setWidth 32).getLsbD k = false) ∧
  (∀ imm : Imm, decode (assemble 0x3#4 imm) = .ok .get)

/-- 41_engine R78: `INC` writes the register shifted right by one, with the forward mask XORed in when the bit shifted out
is 1, and answers `(OK, 0)`; the corner cases 0, 1 and 2. -/
def Obligations.IncStepsForward : Prop :=
  (∀ s : State, s.arch.fault = false →
    exec .inc s = .next { s with
      arch.state := (s.arch.state >>> 1) ^^^ (if s.arch.state.getLsbD 0 then s.cfg.fwdMask else 0#s.cfg.W)
      rsp := some ⟨.ok, 0#32⟩ }) ∧
  (∀ s : State, s.arch.fault = false → 2 ≤ s.cfg.W →
    (s.arch.state = 0#s.cfg.W → exec .inc s = .next { s with rsp := some ⟨.ok, 0#32⟩ }) ∧
    (s.arch.state = 1#s.cfg.W → exec .inc s = .next { s with arch.state := s.cfg.fwdMask, rsp := some ⟨.ok, 0#32⟩ }) ∧
    (s.arch.state = 2#s.cfg.W → exec .inc s = .next { s with arch.state := 1#s.cfg.W, rsp := some ⟨.ok, 0#32⟩ })) ∧
  (∀ imm : Imm, decode (assemble 0x4#4 imm) = .ok .inc)

/-- 41_engine R79: `DEC` writes the register shifted left by one, with the inverse mask XORed in when the bit shifted out
is 1, and answers `(OK, 0)`; the corner cases 0, 1 and `2^(W-1)`; with a tap at `W`, `DEC` after `INC` and `INC` after `DEC`
restore the register. -/
def Obligations.DecStepsBackwardAndUndoesInc : Prop :=
  (∀ s : State, s.arch.fault = false →
    exec .dec s = .next { s with
      arch.state := (s.arch.state <<< 1) ^^^ (if s.arch.state.getLsbD (s.cfg.W - 1) then s.cfg.invMask else 0#s.cfg.W)
      rsp := some ⟨.ok, 0#32⟩ }) ∧
  (∀ s : State, s.arch.fault = false → 2 ≤ s.cfg.W →
    (s.arch.state = 0#s.cfg.W → exec .dec s = .next { s with rsp := some ⟨.ok, 0#32⟩ }) ∧
    (s.arch.state = 1#s.cfg.W → exec .dec s = .next { s with arch.state := 2#s.cfg.W, rsp := some ⟨.ok, 0#32⟩ }) ∧
    (s.arch.state = BitVec.twoPow s.cfg.W (s.cfg.W - 1) →
      exec .dec s = .next { s with arch.state := s.cfg.invMask, rsp := some ⟨.ok, 0#32⟩ })) ∧
  (∀ s : State, s.cfg.WellFormed → s.cfg.W ∈ s.cfg.taps → s.arch.fault = false →
    (∃ t, exec .inc s = .next t ∧ exec .dec t = .next { s with rsp := some ⟨.ok, 0#32⟩ }) ∧
    (∃ t, exec .dec s = .next t ∧ exec .inc t = .next { s with rsp := some ⟨.ok, 0#32⟩ })) ∧
  (∀ imm : Imm, decode (assemble 0x5#4 imm) = .ok .dec)

/-- 41_engine R80: `SEQLEN` answers `2^W - 1`, whatever the taps, and changes no register. -/
def Obligations.SeqlenAnswersTheSequenceLength : Prop :=
  (∀ s : State, s.arch.fault = false →
    exec .seqlen s = .next { s with rsp := some ⟨.ok, BitVec.ofNat 32 (2 ^ s.cfg.W - 1)⟩ }) ∧
  (∀ W : Nat, W ≤ 32 → (BitVec.ofNat 32 (2 ^ W - 1)).toNat = 2 ^ W - 1) ∧
  (∀ imm : Imm, decode (assemble 0x6#4 imm) = .ok .seqlen)

/-! ## The lookup commands -/

/-- 44_direct_index R105: `LKD` answers the position of the register, or `(ABSENT, 2^W - 1)` for 0; the corner cases 1,
`FWD_MASK` and 2; without a Direct Index it raises `RESERVED_OP`. It changes no register otherwise. -/
def Obligations.LkdAnswersThePositionOfTheRegister : Prop :=
  (∀ s : State, s.cfg.WellFormed → s.cfg.hasDirect = true → s.arch.fault = false →
    (s.arch.state = 0#s.cfg.W →
      exec .lkd s = .next { s with rsp := some ⟨.absent, (BitVec.allOnes s.cfg.W).setWidth 32⟩ }) ∧
    (s.arch.state ≠ 0#s.cfg.W → ∃ p, p < s.cfg.seqLen ∧ s.cfg.stateAt p = s.arch.state ∧
      exec .lkd s = .next { s with rsp := some ⟨.ok, BitVec.ofNat 32 p⟩ }) ∧
    (s.arch.state = 1#s.cfg.W → exec .lkd s = .next { s with rsp := some ⟨.ok, 0#32⟩ }) ∧
    (s.arch.state = s.cfg.fwdMask → exec .lkd s = .next { s with rsp := some ⟨.ok, 1#32⟩ }) ∧
    (s.arch.state = 2#s.cfg.W →
      exec .lkd s = .next { s with rsp := some ⟨.ok, BitVec.ofNat 32 (s.cfg.seqLen - 1)⟩ })) ∧
  (∀ s : State, s.cfg.hasDirect = false → s.arch.fault = false →
    exec .lkd s = .next { s with arch.fault := true, arch.fcause := 1#2, rsp := some ⟨.fault, 1#32⟩ }) ∧
  (∀ imm : Imm, decode (assemble 0x8#4 imm) = .ok .lkd)

/-- 44_direct_index R106: `LKDI` answers the position of its operand, or `(ABSENT, 2^W - 1)` for 0; an operand that does
not fit raises `OPERAND_RANGE`; without a Direct Index every operand raises `RESERVED_OP`. It reads no register. -/
def Obligations.LkdiAnswersThePositionOfItsOperand : Prop :=
  (∀ (imm : Imm) (s : State), s.cfg.WellFormed → s.cfg.hasDirect = true → s.arch.fault = false →
    (imm = 0#32 →
      exec (.lkdi imm) s = .next { s with rsp := some ⟨.absent, (BitVec.allOnes s.cfg.W).setWidth 32⟩ }) ∧
    (imm ≠ 0#32 → imm.toNat < 2 ^ s.cfg.W → ∃ p, p < s.cfg.seqLen ∧
      s.cfg.stateAt p = imm.setWidth s.cfg.W ∧
      exec (.lkdi imm) s = .next { s with rsp := some ⟨.ok, BitVec.ofNat 32 p⟩ }) ∧
    (2 ^ s.cfg.W ≤ imm.toNat →
      exec (.lkdi imm) s = .next { s with arch.fault := true, arch.fcause := 2#2, rsp := some ⟨.fault, 2#32⟩ })) ∧
  (∀ (imm : Imm) (s : State), s.cfg.hasDirect = false → s.arch.fault = false →
    exec (.lkdi imm) s = .next { s with arch.fault := true, arch.fcause := 1#2, rsp := some ⟨.fault, 1#32⟩ }) ∧
  (∀ imm : Imm, decode (assemble 0x9#4 imm) = .ok (.lkdi imm))

/-- 43_search_index R96, R101: `LKS` answers the search lookup of the register and changes no register, `ABSENT` included;
without a Search Index it raises `RESERVED_OP`; with a tap at `W` the query 0 is always `(ABSENT, 0)`. -/
def Obligations.LksAnswersTheSearchOfTheRegister : Prop :=
  (∀ s : State, s.cfg.hasSearch = true → s.arch.fault = false →
    exec .lks s = .next { s with rsp := some (searchLookup s.cfg s.arch.state) }) ∧
  (∀ s : State, s.cfg.hasSearch = false → s.arch.fault = false →
    exec .lks s = .next { s with arch.fault := true, arch.fcause := 1#2, rsp := some ⟨.fault, 1#32⟩ }) ∧
  (∀ cfg : Config, cfg.WellFormed → cfg.hasSearch = true → cfg.W ∈ cfg.taps →
    searchLookup cfg 0#cfg.W = ⟨.absent, 0#32⟩) ∧
  (∀ imm : Imm, decode (assemble 0xA#4 imm) = .ok .lks)

/-- 43_search_index R97: `LKSI` answers the search lookup of its operand; an operand that does not fit raises
`OPERAND_RANGE`; without a Search Index every operand raises `RESERVED_OP`. It reads and writes no register otherwise. -/
def Obligations.LksiAnswersTheSearchOfItsOperand : Prop :=
  (∀ (imm : Imm) (s : State), s.cfg.hasSearch = true → s.arch.fault = false →
    (imm.toNat < 2 ^ s.cfg.W →
      exec (.lksi imm) s = .next { s with rsp := some (searchLookup s.cfg (imm.setWidth s.cfg.W)) }) ∧
    (2 ^ s.cfg.W ≤ imm.toNat →
      exec (.lksi imm) s = .next { s with arch.fault := true, arch.fcause := 2#2, rsp := some ⟨.fault, 2#32⟩ })) ∧
  (∀ (imm : Imm) (s : State), s.cfg.hasSearch = false → s.arch.fault = false →
    exec (.lksi imm) s = .next { s with arch.fault := true, arch.fcause := 1#2, rsp := some ⟨.fault, 1#32⟩ }) ∧
  (∀ imm : Imm, decode (assemble 0xB#4 imm) = .ok (.lksi imm))

/-- 44_direct_index, and 43_search_index section 3: the immediate lookups and `SEQLEN` answer the same on two engines of one
configuration that are not faulted, whatever their registers hold. -/
def Obligations.ImmediateLookupsDoNotReadTheRegister : Prop :=
  ∀ (s s' t t' : State) (imm : Imm) (i : Instr), i = .lkdi imm ∨ i = .lksi imm ∨ i = .seqlen →
    s'.cfg = s.cfg → s.arch.fault = false → s'.arch.fault = false →
    exec i s = .next t → exec i s' = .next t' → t'.rsp = t.rsp

/-! ## Encoding -/

/-- 30_encoding section 6: decoding the word of any command gives it back, with its operand; and a word that decodes to a
command has that command's opcode and, where the command has an operand, is that command's word. -/
def Obligations.DecodeOfEncodeIsTheCommand : Prop :=
  (∀ i : Instr, decode (encode i) = .ok i) ∧
  (∀ (w : CommandWord) (i : Instr), decode w = .ok i → opField w = opField (encode i)) ∧
  (∀ (w : CommandWord) (imm : Imm),
    (decode w = .ok (.load imm) → w = encode (.load imm)) ∧
    (decode w = .ok (.lkdi imm) → w = encode (.lkdi imm)) ∧
    (decode w = .ok (.lksi imm) → w = encode (.lksi imm)))

/-- 30_encoding section 3 (the opcode map's `match` and `mask` columns): a word decodes to a row's command exactly when
its masked bits are the row's `match`, and to no command exactly when they match no row. -/
def Obligations.OpcodeMapSelectsTheCommand : Prop :=
  ∀ w : CommandWord,
    (decode w = .ok .init ↔ w &&& 0xF00000000#36 = 0x100000000#36) ∧
    (decode w = .ok (.load (w.extractLsb' 0 32)) ↔ w &&& 0xF00000000#36 = 0x200000000#36) ∧
    (decode w = .ok .get ↔ w &&& 0xF00000000#36 = 0x300000000#36) ∧
    (decode w = .ok .inc ↔ w &&& 0xF00000000#36 = 0x400000000#36) ∧
    (decode w = .ok .dec ↔ w &&& 0xF00000000#36 = 0x500000000#36) ∧
    (decode w = .ok .seqlen ↔ w &&& 0xF00000000#36 = 0x600000000#36) ∧
    (decode w = .ok .lkd ↔ w &&& 0xF00000000#36 = 0x800000000#36) ∧
    (decode w = .ok (.lkdi (w.extractLsb' 0 32)) ↔ w &&& 0xF00000000#36 = 0x900000000#36) ∧
    (decode w = .ok .lks ↔ w &&& 0xF00000000#36 = 0xA00000000#36) ∧
    (decode w = .ok (.lksi (w.extractLsb' 0 32)) ↔ w &&& 0xF00000000#36 = 0xB00000000#36) ∧
    ((∃ e, decode w = .error e) ↔
      w &&& 0xF00000000#36 ∈ [0x000000000#36, 0x700000000#36, 0xC00000000#36, 0xD00000000#36, 0xE00000000#36,
        0xF00000000#36])

/-- 30_encoding section 6: the example words of the assembler syntax decode to the commands they stand for. A sanity
statement. -/
def Obligations.ExampleWordsDecode : Prop :=
  decode 0x100000000#36 = .ok .init ∧ decode 0x20000ACE1#36 = .ok (.load 0xACE1#32) ∧
  decode 0x300000000#36 = .ok .get ∧ decode 0x400000000#36 = .ok .inc ∧ decode 0x500000000#36 = .ok .dec ∧
  decode 0x600000000#36 = .ok .seqlen ∧ decode 0x800000000#36 = .ok .lkd ∧
  decode 0x900000002#36 = .ok (.lkdi 2#32) ∧ decode 0xA00000000#36 = .ok .lks ∧
  decode 0xBB6EDB003#36 = .ok (.lksi 0xB6EDB003#32)

/-- 30_encoding R51: the `imm` field of the seven commands without an operand changes nothing in a step; no bit of the
`imm` of the three commands with one is ignored; the encoder emits zero where there is no operand. -/
def Obligations.ImmediateIsIgnoredExactlyWithoutAnOperand : Prop :=
  (∀ (s : State) (rest : List Input) (op : BitVec 4) (imm imm' : Imm),
    op ∈ [0x1#4, 0x3#4, 0x4#4, 0x5#4, 0x6#4, 0x8#4, 0xA#4] →
    step { s with inputs := .command (assemble op imm) :: rest } =
      step { s with inputs := .command (assemble op imm') :: rest }) ∧
  (∀ (op : BitVec 4) (imm imm' : Imm), op ∈ [0x2#4, 0x9#4, 0xB#4] → imm ≠ imm' →
    decode (assemble op imm) ≠ decode (assemble op imm')) ∧
  (∀ i ∈ [Instr.init, .get, .inc, .dec, .seqlen, .lkd, .lks], immField (encode i) = 0#32)

/-! ## The step and the dispatcher -/

/-- 00_scope section 7, 30_encoding section 4: where the word presented next decodes to a command, a step is that command
run on the engine from which the word has been taken; nothing else is around it. -/
def Obligations.StepRunsTheDecodedCommand : Prop :=
  ∀ (s : State) (w : CommandWord) (rest : List Input) (i : Instr),
    s.inputs = .command w :: rest → decode w = .ok i → step s = exec i { s with inputs := rest }

/-- 30_encoding R58, 60_exceptions R115: the dispatcher's four steps, in their order, for any word. -/
def Obligations.DispatcherDecidesInOrder : Prop :=
  ∀ (s : State) (w : CommandWord) (rest : List Input) (op : BitVec 4) (imm : Imm),
    s.inputs = .command w :: rest → op = w.extractLsb' 32 4 → imm = w.extractLsb' 0 32 →
    ∀ valid wide : Prop,
    (valid ↔ op ∈ [1#4, 2#4, 3#4, 4#4, 5#4, 6#4] ∨ (op ∈ [8#4, 9#4] ∧ s.cfg.hasDirect = true) ∨
      (op ∈ [10#4, 11#4] ∧ s.cfg.hasSearch = true)) →
    (wide ↔ op ∈ [2#4, 9#4, 11#4] ∧ s.cfg.W < 32 ∧ imm.extractLsb' s.cfg.W (32 - s.cfg.W) ≠ 0#(32 - s.cfg.W)) →
    (s.arch.fault = true →
      step s = .next { s with inputs := rest, rsp := some ⟨.fault, s.arch.fcause.setWidth 32⟩ }) ∧
    (s.arch.fault = false → ¬valid →
      step s = .next { s with inputs := rest, arch.fault := true, arch.fcause := 1#2, rsp := some ⟨.fault, 1#32⟩ }) ∧
    (s.arch.fault = false → valid → wide →
      step s = .next { s with inputs := rest, arch.fault := true, arch.fcause := 2#2, rsp := some ⟨.fault, 2#32⟩ }) ∧
    (s.arch.fault = false → valid → ¬wide →
      ∃ i : Instr, decode w = .ok i ∧ i.wf s.cfg = true ∧ step s = exec i { s with inputs := rest })

/-- 30_encoding R49: a word with a reserved opcode raises `RESERVED_OP` and leaves `state`; the all-zero word is one. -/
def Obligations.ReservedWordsRaiseReservedOp : Prop :=
  (∀ (s : State) (op : BitVec 4) (imm : Imm) (rest : List Input),
    op ∈ [0x0#4, 0x7#4, 0xC#4, 0xD#4, 0xE#4, 0xF#4] → s.inputs = .command (assemble op imm) :: rest →
    s.arch.fault = false →
    step s = .next { s with inputs := rest, arch.fault := true, arch.fcause := 1#2, rsp := some ⟨.fault, 1#32⟩ }) ∧
  0#36 = assemble 0x0#4 0#32

/-- 30_encoding R47: the operand of `LOAD`, `LKDI`, `LKSI` is `imm[W-1:0]` where `imm[31:W]` is zero; where it is not, the
command raises `OPERAND_RANGE` and does nothing else; at width 32 every operand is legal; the opcode is checked first. -/
def Obligations.OperandIsLegalExactlyBelowTwoToTheW : Prop :=
  (∀ (W : Nat) (imm : Imm), (operand W imm = none ↔ ∃ k, W ≤ k ∧ k < 32 ∧ imm.getLsbD k = true) ∧
    (∀ v : BitVec W, operand W imm = some v → ∀ k, k < W → v.getLsbD k = imm.getLsbD k)) ∧
  (∀ imm : Imm, operand 32 imm = some imm) ∧
  (∀ (s : State) (imm : Imm) (i : Instr), i = .load imm ∨ i = .lkdi imm ∨ i = .lksi imm →
    s.arch.fault = false → operand s.cfg.W imm = none →
    (i.present s.cfg = true →
      exec i s = .next { s with arch.fault := true, arch.fcause := 2#2, rsp := some ⟨.fault, 2#32⟩ }) ∧
    (i.present s.cfg = false →
      exec i s = .next { s with arch.fault := true, arch.fcause := 1#2, rsp := some ⟨.fault, 1#32⟩ }))

/-- 00_scope section 7, 60_exceptions section 1: on an engine of a well-formed configuration every command word is answered
by exactly one response, whatever the word and the registers; the answer is `FAULT` exactly when the engine is then faulted.
Nothing is refused and nothing stops. -/
def Obligations.EveryCommandIsAnsweredOnce : Prop :=
  ∀ (s : State) (w : CommandWord) (rest : List Input), s.cfg.WellFormed → s.inputs = .command w :: rest →
    ∃ t r, step s = .next t ∧ t.inputs = rest ∧ t.rsp = some r ∧ (r.status = .fault ↔ t.arch.fault = true)

/-- 30_encoding R53: the status codes; `ABSENT` is answered only by `LKS`, `LKSI`, and by `LKD`, `LKDI` for the query 0. -/
def Obligations.AbsentIsAnsweredOnlyByLookups : Prop :=
  Status.code .ok = 0#2 ∧ Status.code .absent = 1#2 ∧ Status.code .fault = 2#2 ∧ (∀ x : Status, x.code ≠ 3#2) ∧
  (∀ (s t : State) (w : CommandWord) (rest : List Input) (d : Datum), s.cfg.WellFormed →
    s.inputs = .command w :: rest → step s = .next t → t.rsp = some ⟨.absent, d⟩ →
    decode w = .ok .lks ∨ (∃ imm, decode w = .ok (.lksi imm)) ∨
      (decode w = .ok .lkd ∧ s.arch.state = 0#s.cfg.W) ∨ decode w = .ok (.lkdi 0#32))

/-! ## Faults -/

/-- 60_exceptions R113: a command that takes an engine into the faulted state writes `fault`, `fcause` and its answer, and
nothing else: `state` and the configuration are as before. -/
def Obligations.FaultEntryWritesOnlyFaultAndCause : Prop :=
  ∀ (s t : State) (w : CommandWord) (rest : List Input), s.inputs = .command w :: rest →
    s.arch.fault = false → step s = .next t → t.arch.fault = true →
    ∃ c : BitVec 2, (c = 1#2 ∨ c = 2#2) ∧
      t = { s with inputs := rest, arch.fault := true, arch.fcause := c, rsp := some ⟨.fault, c.setWidth 32⟩ }

/-- 60_exceptions R114, R116: no list of command words whatever, `INIT` and `LOAD` among them, leads out of the faulted
state: each is answered `(FAULT, zext_32(fcause))` with the first cause, and neither `state` nor `fcause` changes. One reset
does, and puts `state` at 1. -/
def Obligations.OnlyResetLeavesTheFaultedState : Prop :=
  (∀ (s : State) (ws : List CommandWord), s.arch.fault = true →
    ∃ t, runInputs (ws.map .command) s =
        .next (t, List.replicate ws.length ⟨.fault, s.arch.fcause.setWidth 32⟩) ∧
      t = { s with inputs := t.inputs, rsp := t.rsp }) ∧
  (∀ s : State, ∃ t, runInputs [.reset] s = .next (t, []) ∧ t = State.resetOf s.cfg)

/-- 10_state R19: `fcause` holds the first cause since reset: it is written only by a fault entry while `fault` is 0, with 1
or 2, and cleared only by reset; `fault = 0` exactly when `fcause = 0` is kept. -/
def Obligations.FcauseHoldsTheFirstCause : Prop :=
  (∀ cfg : Config, (State.resetOf cfg).arch.fcause = 0#2) ∧
  (∀ s t : State, step s = .next t → (∃ rest, s.inputs = .reset :: rest) → t.arch.fcause = 0#2 ∧ t.arch.fault = false) ∧
  (∀ s t : State, step s = .next t → (∀ rest, s.inputs ≠ .reset :: rest) →
    (s.arch.fault = true → t.arch.fcause = s.arch.fcause ∧ t.arch.fault = true) ∧
    (s.arch.fault = false → (t.arch.fcause = s.arch.fcause ∧ t.arch.fault = false) ∨
      ((t.arch.fcause = 1#2 ∨ t.arch.fcause = 2#2) ∧ t.arch.fault = true))) ∧
  (∀ s t : State, step s = .next t → (s.arch.fault = false ↔ s.arch.fcause = 0#2) → (t.arch.fault = false ↔ t.arch.fcause = 0#2))

/-- 10_state sections 2 and 7: the invariant holds right after reset of every well-formed configuration, and of the one
`State.reset` carries (the model's choice, log entry 2). -/
def Obligations.InvariantHoldsAtReset : Prop :=
  (∀ cfg : Config, cfg.WellFormed → (State.resetOf cfg).Inv) ∧ State.reset.Inv

/-- 10_state sections 2 and 7: every step keeps the invariant, from every engine that meets it. -/
def Obligations.StepKeepsTheInvariant : Prop :=
  ∀ s t : State, s.Inv → step s = .next t → t.Inv

/-- 10_state R28: the triples reachable from reset are exactly `(v, 0, 0)` and `(v, 1, c)` with `c` 1 or 2, for every `v`,
but that at width 32 cause 2 is not reachable. -/
def Obligations.ReachableTriples : Prop :=
  ∀ cfg : Config, cfg.WellFormed →
    (∀ t : State, State.Reachable cfg t →
      (t.arch.fault = false ∧ t.arch.fcause = 0#2) ∨
        (t.arch.fault = true ∧ (t.arch.fcause = 1#2 ∨ (t.arch.fcause = 2#2 ∧ cfg.W < 32)))) ∧
    (∀ (v : BitVec cfg.W) (f : Bool) (c : BitVec 2),
      (f = false ∧ c = 0#2) ∨ (f = true ∧ (c = 1#2 ∨ (c = 2#2 ∧ cfg.W < 32))) →
      ∃ t : State, State.Reachable cfg t ∧
        t = { cfg := cfg, arch.state := v, arch.fault := f, arch.fcause := c, inputs := t.inputs, rsp := t.rsp })

/-! ## Frames -/

/-- 10_state sections 1 and 2, 41_engine section 2: the frame of `INIT`, `LOAD`, `INC`, `DEC`. Each changes `state` and the
answer; only `LOAD`, with an operand that does not fit, changes `fault` and `fcause` instead of `state`; while faulted only
the answer changes. The configuration, so every table word, and the inputs are unchanged. -/
def Obligations.FrameOfTheWritingCommands : Prop :=
  ∀ (s t : State) (i : Instr), i = .init ∨ (∃ imm, i = .load imm) ∨ i = .inc ∨ i = .dec → exec i s = .next t →
    (s.arch.fault = true → ∃ r, t = { s with rsp := r }) ∧
    (s.arch.fault = false →
      (∃ v r, t = { s with arch.state := v, rsp := r }) ∨
      (∃ imm c r, i = .load imm ∧ 2 ^ s.cfg.W ≤ imm.toNat ∧ t = { s with arch.fault := true, arch.fcause := c, rsp := r }))

/-- 10_state sections 1 and 2, 41_engine section 2, 43_search_index section 2, 44_direct_index section 2: the frame of `GET`,
`SEQLEN`, `LKD`, `LKDI`, `LKS`, `LKSI`. Each changes the answer alone; a lookup whose index is absent or whose operand does
not fit changes `fault` and `fcause` too. `state`, the configuration, so every table word, and the inputs are unchanged. -/
def Obligations.FrameOfTheReadingCommands : Prop :=
  ∀ (s t : State) (i : Instr),
    i = .get ∨ i = .seqlen ∨ i = .lkd ∨ (∃ imm, i = .lkdi imm) ∨ i = .lks ∨ (∃ imm, i = .lksi imm) →
    exec i s = .next t →
    (∃ r, t = { s with rsp := r }) ∨
    (s.arch.fault = false ∧ i.wf s.cfg = false ∧ ∃ c r, t = { s with arch.fault := true, arch.fcause := c, rsp := r })

/-- 10_state section 3, 20_memory section 1, 40_tap_mask_compiler (lifetime of the masks): over any run the configuration
stays, and every word of both tables reads as before. -/
def Obligations.NoRunChangesConfigurationOrTables : Prop :=
  ∀ (ins : List Input) (s t : State) (rs : List Response), runInputs ins s = .next (t, rs) →
    t.cfg = s.cfg ∧
    (∀ i, (t.cfg.readSpt i).map (fun e => (e.pos.toNat, e.st.toNat)) =
      (s.cfg.readSpt i).map (fun e => (e.pos.toNat, e.st.toNat))) ∧
    (∀ a : Nat, (t.cfg.readRev (BitVec.ofNat t.cfg.W a)).map BitVec.toNat =
      (s.cfg.readRev (BitVec.ofNat s.cfg.W a)).map BitVec.toNat)

/-! ## Configurations and the Tap Mask Compiler -/

/-- 00_scope section 5: the checks at elaboration pass exactly for the well-formed configurations of R6, whose tap list
besides names no position twice, which is the model's reading of the distinct positions of R5 (log entry 10, DESIGN CHOICE);
such a configuration gives the engine right after reset and any other is refused; a Direct Index forces a tap at `W` and a
cycle-complete tap set. -/
def Obligations.ElaborationAcceptsTheWellFormed : Prop :=
  (∀ cfg : Config, cfg.wf = true ↔ cfg.WellFormed) ∧
  (∀ cfg : Config, cfg.WellFormed → elaborate cfg = .next (State.resetOf cfg)) ∧
  (∀ cfg : Config, ¬cfg.WellFormed → elaborate cfg = .refused .illFormedConfiguration) ∧
  (∀ cfg : Config, cfg.WellFormed → cfg.hasDirect = true → cfg.W ∈ cfg.taps ∧ cfg.CycleComplete)

/-- 40_tap_mask_compiler R60: bit `i` of the forward mask is 1 exactly when `i + 1` is a tap; it is not 0; the order of the
taps does not matter. -/
def Obligations.ForwardMaskBitsAreTheTaps : Prop :=
  (∀ cfg : Config, cfg.WellFormed →
    (∀ i, i < cfg.W → (cfg.fwdMask.getLsbD i = true ↔ i + 1 ∈ cfg.taps)) ∧ cfg.fwdMask ≠ 0#cfg.W) ∧
  (∀ (W : Nat) (l l' : List Nat), l.Perm l' → fwdMaskOf W l = fwdMaskOf W l') ∧
  fwdMaskOf 16 [16, 15, 13, 4] = 0xD008#16

/-- 40_tap_mask_compiler R61: the inverse mask is the forward mask rotated left by one bit within W bits, bit by bit. -/
def Obligations.InverseMaskIsTheRotatedForwardMask : Prop :=
  (∀ (W : Nat) (f : BitVec W), 2 ≤ W → invMaskOf f = f.rotateLeft 1 ∧
    (invMaskOf f).getLsbD 0 = f.getLsbD (W - 1) ∧
    (∀ i, 1 ≤ i → i < W → (invMaskOf f).getLsbD i = f.getLsbD (i - 1))) ∧
  invMaskOf 0xD008#16 = 0xA011#16 ∧ invMaskOf 0x80200003#32 = 0x00400007#32

/-- 40_tap_mask_compiler R62: the untruncated literal formula agrees with the inverse mask in the low W bits and has the
forward mask's top bit at bit W; in the 32-bit container bit W of a backward step is `s[W-1] & ~FWD_MASK[W-1]`, which is 0
for every `s` exactly when there is a tap at `W`; the low W bits of the container always agree with `down`, and the whole of
it does with a tap at `W`. -/
def Obligations.LiteralInverseMaskFormula : Prop :=
  ∀ cfg : Config, cfg.WellFormed →
    (invLitOf cfg.fwdMask).setWidth cfg.W = cfg.invMask ∧
    (invLitOf cfg.fwdMask).getLsbD cfg.W = cfg.fwdMask.getLsbD (cfg.W - 1) ∧
    (cfg.W < 32 →
      (∀ s : BitVec cfg.W, (down32 cfg.fwdMask (s.setWidth 32)).getLsbD cfg.W =
        (s.getLsbD (cfg.W - 1) && !cfg.fwdMask.getLsbD (cfg.W - 1))) ∧
      ((∀ s : BitVec cfg.W, (down32 cfg.fwdMask (s.setWidth 32)).getLsbD cfg.W = false) ↔ cfg.W ∈ cfg.taps) ∧
      (∀ s : BitVec cfg.W, (down32 cfg.fwdMask (s.setWidth 32)).setWidth cfg.W = cfg.down s) ∧
      (cfg.W ∈ cfg.taps → ∀ s : BitVec cfg.W, down32 cfg.fwdMask (s.setWidth 32) = (cfg.down s).setWidth 32))

/-- 40_tap_mask_compiler R65: bit 0 of the inverse mask is the top bit of the forward mask, 1 exactly with a tap at `W`; and
with one, the inverse mask shifted right is the forward mask without its top bit. -/
def Obligations.MaskFacts : Prop :=
  ∀ cfg : Config, cfg.WellFormed →
    cfg.invMask.getLsbD 0 = cfg.fwdMask.getLsbD (cfg.W - 1) ∧
    (cfg.fwdMask.getLsbD (cfg.W - 1) = true ↔ cfg.W ∈ cfg.taps) ∧
    (cfg.W ∈ cfg.taps →
      cfg.invMask >>> 1 = cfg.fwdMask &&& BitVec.ofNat cfg.W (2 ^ (cfg.W - 1) - 1) ∧
      (cfg.invMask >>> 1) ^^^ cfg.fwdMask = BitVec.twoPow cfg.W (cfg.W - 1))

/-! ## The transition functions -/

/-- 41_engine R67: the corner cases of `up` beside its formula. -/
def Obligations.UpFormulaAndCorners : Prop :=
  ∀ cfg : Config, cfg.WellFormed →
    (∀ s : BitVec cfg.W, cfg.up s = (s >>> 1) ^^^ (if s.getLsbD 0 = true then cfg.fwdMask else 0#cfg.W) ∧
      (s >>> 1).getLsbD (cfg.W - 1) = false) ∧
    cfg.up 0#cfg.W = 0#cfg.W ∧ cfg.up 1#cfg.W = cfg.fwdMask ∧ cfg.up 2#cfg.W = 1#cfg.W ∧
    cfg.up (BitVec.allOnes cfg.W) = BitVec.ofNat cfg.W (2 ^ (cfg.W - 1) - 1) ^^^ cfg.fwdMask

/-- 41_engine R68: the corner cases of `down` beside its formula. -/
def Obligations.DownFormulaAndCorners : Prop :=
  ∀ cfg : Config, cfg.WellFormed →
    (∀ s : BitVec cfg.W,
      cfg.down s = (s <<< 1) ^^^ (if s.getLsbD (cfg.W - 1) = true then cfg.invMask else 0#cfg.W) ∧
      (s <<< 1).getLsbD 0 = false) ∧
    cfg.down 0#cfg.W = 0#cfg.W ∧ cfg.down 1#cfg.W = 2#cfg.W ∧
    cfg.down (BitVec.twoPow cfg.W (cfg.W - 1)) = cfg.invMask ∧
    cfg.down (BitVec.allOnes cfg.W) = BitVec.ofNat cfg.W (2 ^ cfg.W - 2) ^^^ cfg.invMask

/-- 41_engine R69: both steps are their branch-free forms, the product with the bit and the AND with its negation. -/
def Obligations.BranchFreeForms : Prop :=
  ∀ (W : Nat) (m s : BitVec W),
    up m s = (s >>> 1) ^^^ (m * (BitVec.ofBool (s.getLsbD 0)).setWidth W) ∧
    up m s = (s >>> 1) ^^^ (m &&& (0#W - (BitVec.ofBool (s.getLsbD 0)).setWidth W)) ∧
    down m s = (s <<< 1) ^^^ (m * (BitVec.ofBool (s.getLsbD (W - 1))).setWidth W) ∧
    down m s = (s <<< 1) ^^^ (m &&& (0#W - (BitVec.ofBool (s.getLsbD (W - 1))).setWidth W))

/-- 41_engine R70: with a tap at `W`, the two steps are exact inverses for every state, 0 included. -/
def Obligations.InverseLaw : Prop :=
  ∀ cfg : Config, cfg.WellFormed → cfg.W ∈ cfg.taps →
    ∀ s : BitVec cfg.W, cfg.down (cfg.up s) = s ∧ cfg.up (cfg.down s) = s

/-- 41_engine R71: 0 is a fixed point of both steps for every tap set; an engine at 0 leaves it only by `INIT`, `LOAD` of a
nonzero operand, or reset; with a tap at `W` no step reaches 0 from elsewhere, and without one `up` does. -/
def Obligations.LockUpState : Prop :=
  (∀ cfg : Config, cfg.up 0#cfg.W = 0#cfg.W ∧ cfg.down 0#cfg.W = 0#cfg.W) ∧
  (∀ s t : State, s.arch.state = 0#s.cfg.W → step s = .next t → t.arch.state = 0#t.cfg.W ∨
    (∃ rest, s.inputs = .reset :: rest) ∨
    (∃ w rest, s.inputs = .command w :: rest ∧
      (decode w = .ok .init ∨ ∃ imm, imm ≠ 0#32 ∧ decode w = .ok (.load imm)))) ∧
  (∀ cfg : Config, cfg.WellFormed → cfg.W ∈ cfg.taps → ∀ s : BitVec cfg.W, s ≠ 0#cfg.W →
    cfg.up s ≠ 0#cfg.W ∧ cfg.down s ≠ 0#cfg.W) ∧
  (∀ cfg : Config, cfg.WellFormed → cfg.W ∉ cfg.taps →
    cfg.up ((cfg.fwdMask <<< 1) ||| 1#cfg.W) = 0#cfg.W ∧ (cfg.fwdMask <<< 1) ||| 1#cfg.W ≠ 0#cfg.W)

/-- 41_engine R72: `up` is a bijection exactly with a tap at `W`, and so is `down`; the example of failure. -/
def Obligations.StepsAreBijectiveExactlyWithATopTap : Prop :=
  (∀ cfg : Config, cfg.WellFormed →
    (Function.Bijective cfg.up ↔ cfg.W ∈ cfg.taps) ∧ (Function.Bijective cfg.down ↔ cfg.W ∈ cfg.taps)) ∧
  up (fwdMaskOf 4 [3]) 0x9#4 = 0x0#4 ∧
  down (invMaskOf (fwdMaskOf 4 [3])) (up (fwdMaskOf 4 [3]) 0x1#4) = 0x8#4

/-- 41_engine R73: for a cycle-complete configuration the first `2^W - 1` states are distinct, are the nonzero values, and
the next is 1 again; for any other the states reachable from 1 are not exactly the nonzero values. `SEQLEN` answers
`2^W - 1` either way. -/
def Obligations.MaximalLengthProperty : Prop :=
  ∀ cfg : Config, cfg.WellFormed →
    (cfg.CycleComplete →
      (∀ i j, i < cfg.seqLen → j < cfg.seqLen → cfg.stateAt i = cfg.stateAt j → i = j) ∧
      (∀ v : BitVec cfg.W, v ≠ 0#cfg.W ↔ ∃ p, p < cfg.seqLen ∧ cfg.stateAt p = v) ∧
      cfg.stateAt cfg.seqLen = cfg.stateAt 0 ∧ cfg.stateAt 0 = 1#cfg.W) ∧
    (¬cfg.CycleComplete → ¬∀ v : BitVec cfg.W, v ≠ 0#cfg.W ↔ ∃ p, cfg.stateAt p = v) ∧
    (∀ s : State, s.cfg = cfg → s.arch.fault = false →
      exec .seqlen s = .next { s with rsp := some ⟨.ok, BitVec.ofNat 32 (2 ^ s.cfg.W - 1)⟩ })

/-- 41_engine R74: the source's 32-bit container computes the same forward step always, and the same backward step when
there is a tap at `W` or the top bit is 0; otherwise it sets bit W besides. -/
def Obligations.ContainerSteps : Prop :=
  ∀ cfg : Config, cfg.WellFormed → ∀ s : BitVec cfg.W,
    up32 cfg.fwdMask (s.setWidth 32) = (cfg.up s).setWidth 32 ∧
    (cfg.W ∈ cfg.taps ∨ s.getLsbD (cfg.W - 1) = false →
      down32 cfg.fwdMask (s.setWidth 32) = (cfg.down s).setWidth 32) ∧
    (cfg.W ∉ cfg.taps → s.getLsbD (cfg.W - 1) = true →
      down32 cfg.fwdMask (s.setWidth 32) = (cfg.down s).setWidth 32 ||| BitVec.ofNat 32 (2 ^ cfg.W))

/-- 41_engine R81: the facts of `StateAt` and of positions, with the condition each needs. -/
def Obligations.StateAtFacts : Prop :=
  ∀ cfg : Config, cfg.WellFormed →
    cfg.stateAt 0 = 1#cfg.W ∧ cfg.stateAt 1 = cfg.fwdMask ∧
    (cfg.W ∈ cfg.taps → ∀ p, cfg.stateAt (p + 1) = cfg.up (cfg.stateAt p) ∧
      cfg.stateAt p = cfg.down (cfg.stateAt (p + 1))) ∧
    (cfg.CycleComplete →
      (∀ p, cfg.stateAt (p + cfg.seqLen) = cfg.stateAt p) ∧
      cfg.stateAt (cfg.seqLen - 1) = cfg.down 1#cfg.W ∧ cfg.down 1#cfg.W = 2#cfg.W ∧
      (∀ v : BitVec cfg.W, v ≠ 0#cfg.W → ∃! p, p < cfg.seqLen ∧ cfg.stateAt p = v) ∧
      (∀ p, cfg.stateAt p ≠ 0#cfg.W))

/-- 41_engine R82: `INC` at the last position gives position 0 and `DEC` at position 0 the last, by the ordinary rules. -/
def Obligations.SteppingWrapsAround : Prop :=
  ∀ s : State, s.cfg.WellFormed → s.cfg.CycleComplete → s.arch.fault = false →
    (s.arch.state = s.cfg.stateAt (s.cfg.seqLen - 1) →
      exec .inc s = .next { s with arch.state := s.cfg.stateAt 0, rsp := some ⟨.ok, 0#32⟩ }) ∧
    (s.arch.state = s.cfg.stateAt 0 →
      exec .dec s = .next { s with arch.state := s.cfg.stateAt (s.cfg.seqLen - 1), rsp := some ⟨.ok, 0#32⟩ }) ∧
    s.cfg.up 2#s.cfg.W = 1#s.cfg.W ∧ s.cfg.down 1#s.cfg.W = 2#s.cfg.W

/-! ## The Table Builder -/

/-- 42_table_builder R85: the number of samples, and which positions are recorded. -/
def Obligations.NumberOfSamples : Prop :=
  ∀ cfg : Config, cfg.WellFormed → cfg.hasSearch = true →
    cfg.spt.length = cfg.nsamp ∧
    (∀ i, i < cfg.nsamp ↔ cfg.smin + i * cfg.sstep < cfg.smax) ∧
    (cfg.smin = cfg.smax → cfg.nsamp = 0) ∧
    (0 < cfg.smax - cfg.smin → cfg.smax - cfg.smin ≤ cfg.sstep → cfg.nsamp = 1) ∧
    (0 < cfg.nsamp → cfg.smin + (cfg.nsamp - 1) * cfg.sstep ≤ cfg.smax - 1)

/-- 42_table_builder R86: the closed form of the table the sampling walk builds; for a cycle-complete configuration its
states are nonzero and distinct. -/
def Obligations.SparseTableClosedForm : Prop :=
  ∀ cfg : Config, cfg.WellFormed → cfg.hasSearch = true →
    (∀ i, i < cfg.nsamp → ∃ e, cfg.readSpt i = some e ∧ e.pos.toNat = cfg.smin + i * cfg.sstep ∧
      e.st = cfg.stateAt (cfg.smin + i * cfg.sstep)) ∧
    (∀ i, cfg.nsamp ≤ i → cfg.readSpt i = none) ∧
    (∀ i j e e', cfg.readSpt i = some e → cfg.readSpt j = some e' → i < j → e.pos.toNat < e'.pos.toNat) ∧
    (cfg.CycleComplete → ∀ i j e e', cfg.readSpt i = some e → cfg.readSpt j = some e' →
      e.st ≠ 0#cfg.W ∧ (e.st = e'.st → i = j))

/-- 42_table_builder R88, R89: the exhaustive walk gives the list of every position and its state exactly for the
cycle-complete configurations; it fails with the first repeated position, or with the state it ends at. -/
def Obligations.ExhaustiveWalkDecidesCycleCompleteness : Prop :=
  ∀ cfg : Config,
    (cfg.CycleComplete ↔ ∃ l, cfg.exhaustiveWalk = .ok l) ∧
    (∀ l, cfg.exhaustiveWalk = .ok l → l = (List.range cfg.seqLen).map (fun p => (p, cfg.stateAt p))) ∧
    (∀ p x, cfg.exhaustiveWalk = .error (.repeated p x) →
      p < cfg.seqLen ∧ x = (cfg.stateAt p).toNat ∧ (∃ j, j < p ∧ cfg.stateAt j = cfg.stateAt p) ∧
      (∀ i j, i < j → j < p → cfg.stateAt i ≠ cfg.stateAt j)) ∧
    (∀ x, cfg.exhaustiveWalk = .error (.noReturn x) →
      x = (cfg.stateAt cfg.seqLen).toNat ∧ cfg.stateAt cfg.seqLen ≠ 1#cfg.W ∧
      (∀ i j, i < j → j < cfg.seqLen → cfg.stateAt i ≠ cfg.stateAt j))

/-- 42_table_builder R92, R94: what a passed check implies: no recorded state is 0, every nonzero slot holds the position of
its state and every position stands in one slot, `up` is a bijection and there is a tap at `W`, and the selected words. -/
def Obligations.ReverseTableInvertsTheWalk : Prop :=
  ∀ cfg : Config, cfg.WellFormed → cfg.hasDirect = true →
    (∀ p, p < cfg.seqLen → cfg.stateAt p ≠ 0#cfg.W ∧
      cfg.readRev (cfg.stateAt p) = some (BitVec.ofNat cfg.W p)) ∧
    (∀ a : BitVec cfg.W, a ≠ 0#cfg.W → ∃! p, p < cfg.seqLen ∧ cfg.readRev a = some (BitVec.ofNat cfg.W p)) ∧
    (∀ a b : BitVec cfg.W, a ≠ 0#cfg.W → b ≠ 0#cfg.W → cfg.readRev a = cfg.readRev b → a = b) ∧
    Function.Bijective cfg.up ∧ cfg.W ∈ cfg.taps ∧
    (∀ s : BitVec cfg.W, cfg.down (cfg.up s) = s ∧ cfg.up (cfg.down s) = s) ∧
    cfg.readRev 0#cfg.W = some (BitVec.allOnes cfg.W) ∧ cfg.readRev 1#cfg.W = some 0#cfg.W ∧
    cfg.readRev cfg.fwdMask = some 1#cfg.W ∧ cfg.readRev 2#cfg.W = some (BitVec.ofNat cfg.W (cfg.seqLen - 1))

/-! ## The lookups -/

/-- 43_search_index R95: the first match, offsets ascending and samples ascending within one, gives the exact sum of the
sample's position and the offset; without a match the result is `(ABSENT, 0)`. -/
def Obligations.SearchLookupTakesTheFirstMatch : Prop :=
  ∀ cfg : Config, cfg.WellFormed → cfg.hasSearch = true → ∀ q : BitVec cfg.W,
    (∀ o i e, o < cfg.sstep → cfg.readSpt i = some e → cfg.down^[o] q = e.st →
      (∀ o' i' e', cfg.readSpt i' = some e' → (o' < o ∨ (o' = o ∧ i' < i)) → cfg.down^[o'] q ≠ e'.st) →
      e.pos.toNat + o < 2 ^ 32 ∧ searchLookup cfg q = ⟨.ok, BitVec.ofNat 32 (e.pos.toNat + o)⟩) ∧
    ((∀ o i e, o < cfg.sstep → cfg.readSpt i = some e → cfg.down^[o] q ≠ e.st) →
      searchLookup cfg q = ⟨.absent, 0#32⟩) ∧
    (cfg.nsamp = 0 → searchLookup cfg q = ⟨.absent, 0#32⟩)

/-- 43_search_index R99: with a tap at `W`, a position a search reports is a step count from 1 to the query. -/
def Obligations.SearchLookupIsSound : Prop :=
  ∀ cfg : Config, cfg.WellFormed → cfg.hasSearch = true → cfg.W ∈ cfg.taps →
    ∀ (q : BitVec cfg.W) (r : Datum), searchLookup cfg q = ⟨.ok, r⟩ → cfg.stateAt r.toNat = q

/-- 43_search_index R100: the effective window; with a tap at `W` every state of it is found; a result is in it; and for a
cycle-complete configuration whose window fits in one cycle the result is the position itself, and `ABSENT` exactly for 0 and
for the states of no position congruent to one in the window. -/
def Obligations.SearchLookupIsCompleteOnTheEffectiveWindow : Prop :=
  ∀ cfg : Config, cfg.WellFormed → cfg.hasSearch = true →
    (cfg.smax ≤ cfg.wend ∧ cfg.wend - cfg.smax ≤ cfg.sstep - 1 ∧
      (cfg.wend = cfg.smax ↔ cfg.sstep ∣ cfg.smax - cfg.smin)) ∧
    (cfg.W ∈ cfg.taps → ∀ p, cfg.smin ≤ p → p < cfg.wend →
      ∃ r, cfg.smin ≤ r ∧ r < cfg.wend ∧ searchLookup cfg (cfg.stateAt p) = ⟨.ok, BitVec.ofNat 32 r⟩) ∧
    (∀ (q : BitVec cfg.W) (d : Datum), searchLookup cfg q = ⟨.ok, d⟩ →
      cfg.smin ≤ d.toNat ∧ d.toNat ≤ cfg.wend - 1) ∧
    (cfg.CycleComplete → cfg.nsamp * cfg.sstep ≤ cfg.seqLen →
      (∀ p, cfg.smin ≤ p → p < cfg.wend → searchLookup cfg (cfg.stateAt p) = ⟨.ok, BitVec.ofNat 32 p⟩) ∧
      (∀ q : BitVec cfg.W, (searchLookup cfg q).status = .absent ↔ q = 0#cfg.W ∨
        ∀ p r, p < cfg.seqLen → cfg.stateAt p = q → cfg.smin ≤ r → r < cfg.wend →
          r % cfg.seqLen ≠ p % cfg.seqLen))

/-- 43_search_index R103: a result is not reduced modulo `SEQ_LEN`: it is congruent to the position of the query, is at most
`SEQ_LEN + SSTEP - 2`, and reaches `SEQ_LEN` only when the window runs past it; the example. -/
def Obligations.SearchResultIsNotReduced : Prop :=
  (∀ cfg : Config, cfg.WellFormed → cfg.hasSearch = true → cfg.CycleComplete →
    ∀ (q : BitVec cfg.W) (d : Datum), searchLookup cfg q = ⟨.ok, d⟩ →
      (∃ p, p < cfg.seqLen ∧ cfg.stateAt p = q ∧ d.toNat % cfg.seqLen = p) ∧
      d.toNat ≤ cfg.wend - 1 ∧ cfg.wend - 1 ≤ cfg.seqLen + cfg.sstep - 2 ∧
      (cfg.seqLen ≤ d.toNat → cfg.seqLen < cfg.wend)) ∧
  searchLookup ⟨3, [3, 2], false, true, 5, 7, 3⟩ 1#3 = ⟨.ok, 7#32⟩

/-- 44_direct_index R108: a direct lookup of a nonzero value is its position, below `SEQ_LEN`; of 0 it is
`(ABSENT, SENTINEL)`; there is no other outcome. -/
def Obligations.DirectLookupIsTotal : Prop :=
  ∀ cfg : Config, cfg.WellFormed → cfg.hasDirect = true →
    (∀ q : BitVec cfg.W, q ≠ 0#cfg.W → ∃ p, p ≤ cfg.seqLen - 1 ∧ cfg.stateAt p = q ∧
      directLookup cfg q = some ⟨.ok, BitVec.ofNat 32 p⟩ ∧ (BitVec.ofNat 32 p).toNat = p) ∧
    directLookup cfg 0#cfg.W = some ⟨.absent, cfg.sentinel.setWidth 32⟩

/-- 44_direct_index R109: the reported position is the only one of the state; after `INC` a lookup reports the next position
and after `DEC` the one before, modulo `SEQ_LEN`. -/
def Obligations.DirectLookupFollowsTheSteps : Prop :=
  (∀ cfg : Config, cfg.WellFormed → cfg.hasDirect = true → ∀ p, p < cfg.seqLen →
    directLookup cfg (cfg.stateAt p) = some ⟨.ok, BitVec.ofNat 32 p⟩) ∧
  (∀ s : State, s.cfg.WellFormed → s.cfg.hasDirect = true → s.arch.fault = false → s.arch.state ≠ 0#s.cfg.W →
    ∃ r, r < s.cfg.seqLen ∧ s.cfg.stateAt r = s.arch.state ∧
      (∀ r', r' < s.cfg.seqLen → s.cfg.stateAt r' = s.arch.state → r' = r) ∧
      exec .lkd s = .next { s with rsp := some ⟨.ok, BitVec.ofNat 32 r⟩ } ∧
      (∃ t, exec .inc s = .next t ∧
        exec .lkd t = .next { t with rsp := some ⟨.ok, BitVec.ofNat 32 ((r + 1) % s.cfg.seqLen)⟩ }) ∧
      (∃ t, exec .dec s = .next t ∧
        exec .lkd t = .next { t with rsp := some ⟨.ok, BitVec.ofNat 32 ((r + s.cfg.seqLen - 1) % s.cfg.seqLen)⟩ }))

/-- 44_direct_index R110: where a configuration has both indexes and the search reports `r`, the direct lookup reports `r`
modulo `SEQ_LEN`. -/
def Obligations.TheTwoIndexesAgree : Prop :=
  ∀ cfg : Config, cfg.WellFormed → cfg.hasDirect = true → cfg.hasSearch = true →
    ∀ (q : BitVec cfg.W) (d : Datum), searchLookup cfg q = ⟨.ok, d⟩ →
      directLookup cfg q = some ⟨.ok, BitVec.ofNat 32 (d.toNat % cfg.seqLen)⟩

/-! ## The triple and the host's state -/

/-- 60_exceptions section 6 (no command presented): an engine with nothing presented holds the triple and the configuration,
however often it steps, and no response stands on the port. That nothing presented is an empty `inputs` and that the port is
cleared are the model's choices (log entries 3 and 4, DESIGN CHOICE). -/
def Obligations.AnIdleEngineHoldsItsRegisters : Prop :=
  ∀ s : State, s.inputs = [] →
    step s = .next { s with rsp := none } ∧ step { s with rsp := none } = .next { s with rsp := none }

/-- 00_scope section 7, 10_state section 7, 70_reset_and_hazards section 5: on an engine of a well-formed configuration, a
step that takes a command word is `step(cfg, s, cmd) = (s', rsp)` with `s` the triple: total on every triple and every word,
and a function of the configuration, the triple and the word alone; and the final triple and the responses of a run are those
of the run on the triple alone. What stands beside the triple in `State` (log entries 1, 3, 4, DESIGN CHOICE) is never read:
the configuration is kept, the word is taken from `inputs` and the response replaces the last one. -/
def Obligations.StepAndRunAreThoseOfTheTriple : Prop :=
  (∀ (s : State) (w : CommandWord) (rest : List Input), s.cfg.WellFormed → s.inputs = .command w :: rest →
    ∃ a r, transition s.cfg s.arch w = some (a, r) ∧
      step s = .next { s with arch := a, inputs := rest, rsp := some r }) ∧
  (∀ (s : State) (ins : List Input), s.cfg.WellFormed →
    ∃ a rs t, runTriple s.cfg ins s.arch = some (a, rs) ∧ runInputs ins s = .next (t, rs) ∧
      t = { s with arch := a, inputs := t.inputs, rsp := t.rsp })

/-- 60_exceptions section 3, 30_encoding section 4: the safe runs on an engine of a well-formed configuration are those that
start on an engine that is not faulted and in which every command word is a command whose index is present and whose operand
fits; a run on a faulted engine is not safe, the empty one included, and a safe run ends on an engine that is not faulted.
That a safe run is `SafeRun`, with no `FAULT` response anywhere in it, not even before a reset, is the model's reading of R117
(log entry 5, DEDUCED). -/
def Obligations.SafeRunsAreTheRunsOfFaultlessCommands : Prop :=
  (∀ (s : State) (ins : List Input), s.cfg.WellFormed →
    (SafeRun ins s ↔ s.arch.fault = false ∧
      ∀ w, .command w ∈ ins → ∃ i, decode w = .ok i ∧ i.wf s.cfg = true)) ∧
  (∀ (s : State) (ins : List Input), s.arch.fault = true → ¬SafeRun ins s) ∧
  (∀ (s t : State) (ins : List Input) (rs : List Response), SafeRun ins s → runInputs ins s = .next (t, rs) →
    t.arch.fault = false)
end

