-- ==== Sys2Proof/Laws/Decode.lean ====
section
/-! SUPPORT. The fields of an assembled command word, and the words a command decodes from. -/

namespace Sys2Proof

theorem opField_assemble (op : BitVec 4) (imm : Imm) : opField (assemble op imm) = op := by
  apply BitVec.eq_of_getLsbD_eq
  intro k hk
  simp only [opField, assemble, BitVec.getLsbD_extractLsb', BitVec.getLsbD_append]
  simp [hk]

theorem immField_assemble (op : BitVec 4) (imm : Imm) : immField (assemble op imm) = imm := by
  apply BitVec.eq_of_getLsbD_eq
  intro k hk
  simp only [immField, assemble, BitVec.getLsbD_extractLsb', BitVec.getLsbD_append]
  simp [hk]

/-- A command word is its two fields. -/
theorem assemble_fields (w : CommandWord) : assemble (opField w) (immField w) = w := by
  apply BitVec.eq_of_getLsbD_eq
  intro k hk
  simp only [assemble, opField, immField, BitVec.getLsbD_append, BitVec.getLsbD_extractLsb']
  by_cases h : k < 32
  · simp [h]
  · simp only [h, decide_false]
    have : k - 32 < 4 := by omega
    simp [this]
    congr 1
    omega

/-- The table's mask keeps the opcode field and clears the immediate (30_encoding R48). -/
theorem assemble_and_tableMask (op : BitVec 4) (imm : Imm) :
    assemble op imm &&& tableMask = assemble op 0#32 := by
  have h : tableMask = assemble 0xF#4 0#32 := by decide
  rw [h]
  apply BitVec.eq_of_getLsbD_eq
  intro k hk
  simp only [assemble, BitVec.getLsbD_and, BitVec.getLsbD_append]
  by_cases h : k < 32
  · simp [h]
  · have hk4 : k - 32 < 4 := by omega
    have hones : (0xF#4).getLsbD (k - 32) = true := by
      rw [show (0xF#4) = BitVec.allOnes 4 from rfl, BitVec.getLsbD_allOnes]
      exact decide_eq_true hk4
    simp [h, hones]

end Sys2Proof
end

