-- ==== Sys2Proof/Laws/State.lean ====
section
/-! SUPPORT. The state records: what each update leaves in each field, and reset. -/

namespace Sys2Proof.Machine

section Triple

variable {W : Nat} (a : Arch W)

@[simp] theorem Arch.writeState_state (v : BitVec W) : (a.writeState v).state = v := rfl
@[simp] theorem Arch.writeState_fault (v : BitVec W) : (a.writeState v).fault = a.fault := rfl
@[simp] theorem Arch.writeState_fcause (v : BitVec W) : (a.writeState v).fcause = a.fcause := rfl

@[simp] theorem Arch.reset_state : (Arch.reset W).state = 1#W := rfl
@[simp] theorem Arch.reset_fault : (Arch.reset W).fault = false := rfl
@[simp] theorem Arch.reset_fcause : (Arch.reset W).fcause = 0#2 := rfl

end Triple

variable (s : State)

@[simp] theorem State.resetRegisters_cfg : (s.resetRegisters).cfg = s.cfg := rfl
@[simp] theorem State.resetRegisters_arch : (s.resetRegisters).arch = Arch.reset s.cfg.W := rfl
@[simp] theorem State.resetRegisters_inputs : (s.resetRegisters).inputs = s.inputs := rfl
@[simp] theorem State.resetRegisters_rsp : (s.resetRegisters).rsp = none := rfl

@[simp] theorem State.idle_cfg : (s.idle).cfg = s.cfg := rfl
@[simp] theorem State.idle_arch : (s.idle).arch = s.arch := rfl
@[simp] theorem State.idle_inputs : (s.idle).inputs = s.inputs := rfl
@[simp] theorem State.idle_rsp : (s.idle).rsp = none := rfl

@[simp] theorem State.takeInput_cfg (rest : List Input) : (s.takeInput rest).cfg = s.cfg := rfl
@[simp] theorem State.takeInput_arch (rest : List Input) : (s.takeInput rest).arch = s.arch := rfl
@[simp] theorem State.takeInput_inputs (rest : List Input) : (s.takeInput rest).inputs = rest := rfl
@[simp] theorem State.takeInput_rsp (rest : List Input) : (s.takeInput rest).rsp = s.rsp := rfl

@[simp] theorem State.presented_cfg (inp : Input) : (s.presented inp).cfg = s.cfg := rfl
@[simp] theorem State.presented_arch (inp : Input) : (s.presented inp).arch = s.arch := rfl
@[simp] theorem State.presented_inputs (inp : Input) : (s.presented inp).inputs = [inp] := rfl
@[simp] theorem State.presented_rsp (inp : Input) : (s.presented inp).rsp = s.rsp := rfl

@[simp] theorem State.withFetchWord_cfg (n w : Nat) : (s.withFetchWord n w).cfg = s.cfg := rfl
@[simp] theorem State.withFetchWord_arch (n w : Nat) : (s.withFetchWord n w).arch = s.arch := rfl
@[simp] theorem State.withFetchWord_inputs (n w : Nat) : (s.withFetchWord n w).inputs = .command (BitVec.ofNat 36 w) :: s.inputs := rfl
@[simp] theorem State.withFetchWord_rsp (n w : Nat) : (s.withFetchWord n w).rsp = s.rsp := rfl

@[simp] theorem State.resetOf_cfg (cfg : Config) : (State.resetOf cfg).cfg = cfg := rfl
@[simp] theorem State.resetOf_arch (cfg : Config) : (State.resetOf cfg).arch = Arch.reset cfg.W := rfl
@[simp] theorem State.resetOf_inputs (cfg : Config) : (State.resetOf cfg).inputs = [] := rfl
@[simp] theorem State.resetOf_rsp (cfg : Config) : (State.resetOf cfg).rsp = none := rfl

/-- Reset takes any engine to the engine of its configuration right after reset, but for the inputs still to come. -/
theorem State.resetRegisters_eq : s.resetRegisters = { State.resetOf s.cfg with inputs := s.inputs } := rfl

end Sys2Proof.Machine
end

