-- ==== Sys2Proof/Laws/Ops.lean ====
section
/-! SUPPORT. What the shared operations answer: the operand form, the dispatcher's checks and the direct lookup's answer,
each said once, so that no later proof unfolds them. -/

namespace Sys2Proof.Machine

/-! ## The operand (30_encoding R47) -/

theorem operand_of_lt {W : Nat} {imm : Imm} (h : imm.toNat < 2 ^ W) :
    operand W imm = some (imm.setWidth W) := by
  unfold operand
  rw [if_neg]
  rintro ⟨_, hne⟩
  refine hne (BitVec.eq_of_toNat_eq ?_)
  simp [Nat.shiftRight_eq_div_pow, Nat.div_eq_of_lt h]

theorem operand_of_ge {W : Nat} {imm : Imm} (h : 2 ^ W ≤ imm.toNat) : operand W imm = none := by
  have hW : W < 32 := by
    by_contra hge
    have h1 : 2 ^ 32 ≤ 2 ^ W := Nat.pow_le_pow_right (by norm_num) (by omega)
    have h2 := imm.isLt
    omega
  unfold operand
  rw [if_pos]
  refine ⟨hW, fun heq => ?_⟩
  have hz := congrArg BitVec.toNat heq
  simp only [BitVec.extractLsb'_toNat, BitVec.toNat_ofNat, Nat.zero_mod, Nat.shiftRight_eq_div_pow] at hz
  have hlt : imm.toNat / 2 ^ W < 2 ^ (32 - W) := by
    rw [Nat.div_lt_iff_lt_mul (by positivity), ← Nat.pow_add]
    have : 32 - W + W = 32 := by omega
    rw [this]
    exact imm.isLt
  rw [Nat.mod_eq_of_lt hlt, Nat.div_eq_zero_iff] at hz
  rcases hz with hz | hz
  · exact absurd hz (by positivity)
  · omega

/-- Everything the operand form can answer. -/
theorem operand_cases (W : Nat) (imm : Imm) :
    (imm.toNat < 2 ^ W ∧ operand W imm = some (imm.setWidth W)) ∨
      (2 ^ W ≤ imm.toNat ∧ operand W imm = none) := by
  rcases Nat.lt_or_ge imm.toNat (2 ^ W) with h | h
  · exact .inl ⟨h, operand_of_lt h⟩
  · exact .inr ⟨h, operand_of_ge h⟩

/-! ## The dispatcher (30_encoding R58) -/

section Triple

variable {W : Nat} {a : Arch W} {valid : Bool} {body : Answer W} {o : Arch W × Response}

theorem Arch.dispatch_faulted (h : a.fault = true) : a.dispatch valid body = a.refuseFaulted := by
  simp [Arch.dispatch, h]

theorem Arch.dispatch_valid (h : a.fault = false) (hv : valid = true) : a.dispatch valid body = body := by
  simp [Arch.dispatch, h, hv]

theorem Arch.dispatch_invalid (h : a.fault = false) (hv : valid = false) :
    a.dispatch valid body = a.raiseFault .reservedOp := by
  simp [Arch.dispatch, h, hv]

/-- Everything a dispatched command can answer. -/
theorem Arch.dispatch_some (h : a.dispatch valid body = some o) :
    (a.fault = true ∧ a.refuseFaulted = some o) ∨
      (a.fault = false ∧ valid = false ∧ a.raiseFault .reservedOp = some o) ∨
      (a.fault = false ∧ valid = true ∧ body = some o) := by
  cases hf : a.fault
  · cases valid
    · exact .inr (.inl ⟨rfl, rfl, by rwa [Arch.dispatch_invalid hf rfl] at h⟩)
    · exact .inr (.inr ⟨rfl, rfl, by rwa [Arch.dispatch_valid hf rfl] at h⟩)
  · exact .inl ⟨rfl, by rwa [Arch.dispatch_faulted hf] at h⟩

variable {imm : Imm} {k : BitVec W → Answer W}

theorem Arch.withOperand_of_lt (h : imm.toNat < 2 ^ W) : a.withOperand imm k = k (imm.setWidth W) := by
  simp [Arch.withOperand, operand_of_lt h]

theorem Arch.withOperand_of_ge (h : 2 ^ W ≤ imm.toNat) : a.withOperand imm k = a.raiseFault .operandRange := by
  simp [Arch.withOperand, operand_of_ge h]

/-- Everything a command with an operand can answer. -/
theorem Arch.withOperand_some (h : a.withOperand imm k = some o) :
    (imm.toNat < 2 ^ W ∧ k (imm.setWidth W) = some o) ∨
      (2 ^ W ≤ imm.toNat ∧ a.raiseFault .operandRange = some o) := by
  rcases Nat.lt_or_ge imm.toNat (2 ^ W) with hlt | hge
  · exact .inl ⟨hlt, by rwa [Arch.withOperand_of_lt hlt] at h⟩
  · exact .inr ⟨hge, by rwa [Arch.withOperand_of_ge hge] at h⟩

/-! ## Reserved words -/

theorem reservedCommand_faulted (h : a.fault = true) : reservedCommand a = a.refuseFaulted :=
  Arch.dispatch_faulted h

theorem reservedCommand_accepting (h : a.fault = false) : reservedCommand a = a.raiseFault .reservedOp :=
  Arch.dispatch_invalid h rfl

end Triple

/-! ## The direct lookup's answer -/

theorem respondDirect_of_some {cfg : Config} {a : Arch cfg.W} {q : BitVec cfg.W} {r : Response}
    (h : directLookup cfg q = some r) : respondDirect cfg a q = a.respond r := by
  simp [respondDirect, h]

theorem respondDirect_some {cfg : Config} {a : Arch cfg.W} {q : BitVec cfg.W} {o : Arch cfg.W × Response}
    (h : respondDirect cfg a q = some o) : ∃ r, directLookup cfg q = some r ∧ o = (a, r) := by
  unfold respondDirect at h
  split at h
  · exact ⟨_, ‹_›, by simpa [Arch.respond] using h.symm⟩
  · simp at h

/-! ## Into the host's state -/

variable {s t : State}

@[simp] theorem State.deliver_some (a : Arch s.cfg.W) (r : Response) :
    s.deliver (some (a, r)) = .next { s with arch := a, rsp := some r } := rfl

@[simp] theorem State.deliver_none : s.deliver none = .refused .illFormedConfiguration := rfl

/-- Everything a delivered answer is as a next state: the triple and the response are the command's, the rest is kept. -/
theorem State.deliver_next {o : Answer s.cfg.W} (h : s.deliver o = .next t) :
    ∃ a r, o = some (a, r) ∧ t = { s with arch := a, rsp := some r } := by
  match o, h with
  | some (a, r), h => exact ⟨a, r, rfl, by simpa using h.symm⟩

/-- A meaning is its command's answer from the triple, delivered. -/
theorem exec_eq_deliver (i : Instr) (s : State) : exec i s = s.deliver (command s.cfg i s.arch) := by
  cases i <;> rfl

end Sys2Proof.Machine
end

