-- ==== Sys2Proof/Laws/PerInstr.lean ====
section
/-! SUPPORT. Statements made instruction by instruction. -/

namespace Sys2Proof.Laws.TableRow

/-- A command's word lies in its row of the opcode map: `encode i & mask = match` (30_encoding R48). -/
def Statement (i : Instr) : Prop := encode i &&& tableMask = tableMatch i

theorem init : Statement .init := by unfold Statement; decide

theorem load (imm : Imm) : Statement (.load imm) := assemble_and_tableMask 0x2#4 imm

theorem get : Statement .get := by unfold Statement; decide

theorem inc : Statement .inc := by unfold Statement; decide

theorem dec : Statement .dec := by unfold Statement; decide

theorem seqlen : Statement .seqlen := by unfold Statement; decide

theorem lkd : Statement .lkd := by unfold Statement; decide

theorem lkdi (imm : Imm) : Statement (.lkdi imm) := assemble_and_tableMask 0x9#4 imm

theorem lks : Statement .lks := by unfold Statement; decide

theorem lksi (imm : Imm) : Statement (.lksi imm) := assemble_and_tableMask 0xB#4 imm

end Sys2Proof.Laws.TableRow
end

