-- ==== Sys2Proof/Laws/Step.lean ====
section
/-! SUPPORT. What one step and one command can do, said once: every invariant and every frame is derived from these. -/

namespace Sys2Proof.Machine

/-- The four shapes of a command's answer: the register and an `OK` answer, an answer alone, or a fault entry. A faulted
engine only answers. -/
inductive Effect {W : Nat} (a : Arch W) : Arch W × Response → Prop where
  | refused (h : a.fault = true) : Effect a (a, faultResponse a.fcause)
  | wrote (h : a.fault = false) (v : BitVec W) : Effect a (a.writeState v, okResponse 0#32)
  | answered (h : a.fault = false) (r : Response) (hr : r.status ≠ .fault) : Effect a (a, r)
  | faulted (h : a.fault = false) (c : Cause) (hc : c = .operandRange → W < 32) :
    Effect a ({ a with fault := true, fcause := c.code }, faultResponse c.code)

theorem width_lt_of_ge {W : Nat} {imm : Imm} (h : 2 ^ W ≤ imm.toNat) : W < 32 := by
  by_contra hge
  have h1 : 2 ^ 32 ≤ 2 ^ W := Nat.pow_le_pow_right (by norm_num) (by omega)
  have h2 := imm.isLt
  omega

theorem searchLookup_status (cfg : Config) (q : BitVec cfg.W) : (searchLookup cfg q).status ≠ .fault := by
  unfold searchLookup
  split <;> simp

theorem directLookup_status {cfg : Config} {q : BitVec cfg.W} {r : Response} (h : directLookup cfg q = some r) :
    r.status ≠ .fault := by
  unfold directLookup at h
  obtain ⟨w, _, rfl⟩ := Option.map_eq_some_iff.mp h
  split <;> simp

/-- Every answer of a command has one of the four shapes. -/
theorem command_effect {cfg : Config} {i : Instr} {a : Arch cfg.W} {o : Arch cfg.W × Response}
    (h : command cfg i a = some o) : Effect a o := by
  cases i <;> simp only [command] at h <;> obtain ⟨hf, ho⟩ | ⟨hf, _, ho⟩ | ⟨hf, _, hb⟩ := Arch.dispatch_some h
  all_goals first
    | cases ho; exact .refused hf
    | cases ho; exact .faulted hf _ (by simp)
    | skip
  case init => cases hb; exact .wrote hf _
  case load =>
    obtain ⟨_, hb⟩ | ⟨hge, ho⟩ := Arch.withOperand_some hb
    · cases hb; exact .wrote hf _
    · cases ho; exact .faulted hf _ fun _ => width_lt_of_ge hge
  case get => cases hb; exact .answered hf _ (by simp [okResponse])
  case inc => cases hb; exact .wrote hf _
  case dec => cases hb; exact .wrote hf _
  case seqlen => cases hb; exact .answered hf _ (by simp [okResponse])
  case lkd =>
    obtain ⟨r, hr, rfl⟩ := respondDirect_some hb
    exact .answered hf r (directLookup_status hr)
  case lkdi =>
    obtain ⟨_, hb⟩ | ⟨hge, ho⟩ := Arch.withOperand_some hb
    · obtain ⟨r, hr, rfl⟩ := respondDirect_some hb
      exact .answered hf r (directLookup_status hr)
    · cases ho; exact .faulted hf _ fun _ => width_lt_of_ge hge
  case lks => cases hb; exact .answered hf _ (searchLookup_status _ _)
  case lksi =>
    obtain ⟨_, hb⟩ | ⟨hge, ho⟩ := Arch.withOperand_some hb
    · cases hb; exact .answered hf _ (searchLookup_status _ _)
    · cases ho; exact .faulted hf _ fun _ => width_lt_of_ge hge

/-- So has every answer to a command word. -/
theorem transition_effect {cfg : Config} {w : CommandWord} {a : Arch cfg.W} {o : Arch cfg.W × Response}
    (h : transition cfg a w = some o) : Effect a o := by
  unfold transition at h
  split at h
  · exact command_effect h
  · cases hf : a.fault
    · rw [reservedCommand_accepting hf] at h
      cases h
      exact .faulted hf _ (by simp)
    · rw [reservedCommand_faulted hf] at h
      cases h
      exact .refused hf

variable {s t : State}

/-- A step that takes a command word is the transition of the triple, delivered. -/
theorem step_command {w : CommandWord} {rest : List Input} (h : s.inputs = .command w :: rest) :
    step s = (s.takeInput rest).deliver (transition s.cfg s.arch w) := by
  cases hd : decode w with
  | ok i => simp only [step, h, transition, hd]; exact exec_eq_deliver i _
  | error e => simp only [step, h, transition, hd]; rfl

/-- What one step can do: hold the engine, reset it, or run the command at the head of the inputs. -/
theorem step_effect (h : step s = .next t) :
    (s.inputs = [] ∧ t = s.idle) ∨
      (∃ rest, s.inputs = .reset :: rest ∧ t = (s.takeInput rest).resetRegisters) ∨
      (∃ w rest a r, s.inputs = .command w :: rest ∧ transition s.cfg s.arch w = some (a, r) ∧ Effect s.arch (a, r) ∧
        t = { s with arch := a, inputs := rest, rsp := some r }) := by
  match hin : s.inputs with
  | [] => exact .inl ⟨rfl, by simpa [step, hin] using h.symm⟩
  | .reset :: rest => exact .inr (.inl ⟨rest, rfl, by simpa [step, hin] using h.symm⟩)
  | .command w :: rest =>
    rw [step_command hin] at h
    obtain ⟨a, r, ho, rfl⟩ := State.deliver_next h
    exact .inr (.inr ⟨w, rest, a, r, rfl, ho, transition_effect ho, rfl⟩)

end Sys2Proof.Machine
end

