-- ==== Sys2Proof/Tests/Slice0.lean ====
section
/-! SUPPORT. Tests. Every expected value is from 95_test_vectors.md or a worked example of the rule named; none is the
model's own answer. The witnesses show states and operands that meet the hypotheses of the statements. -/

namespace Sys2Proof.Tests

open Machine

/-! ## Small engines -/

/-- The configuration of V4 and P5: width 16, no index. -/
def cfg16 : Config := ⟨16, [16, 15, 13, 4], false, false, 0, 0, 0⟩

/-- The configuration of V8: width 3, one sample, a window that runs past the cycle. -/
def cfgWrap : Config := ⟨3, [3, 2], false, true, 5, 7, 3⟩

/-- The configuration of E1 and P3: width 32, a Search Index. -/
def cfg32 : Config := ⟨32, [32, 22, 2, 1], false, true, 10, 20, 5⟩

/-- The configuration of V11: width 4, no tap at 4. -/
def cfgNoTop : Config := ⟨4, [3], false, false, 0, 0, 0⟩

/-- The engine of a configuration with its register at `v`. -/
def engine (cfg : Config) (v : BitVec cfg.W) : State := { State.resetOf cfg with arch.state := v }

/-- A faulted engine: V10's start `(0x1234, 1, 2)`. -/
def faulted16 : State := { engine cfg16 0x1234#16 with arch.fault := true, arch.fcause := 2#2 }

/-- What a test looks at: the triple and the response. -/
def view : Result → Option (Nat × Bool × Nat × Option (Status × Nat))
  | .next t => some (t.arch.state.toNat, t.arch.fault, t.arch.fcause.toNat, t.rsp.map fun r => (r.status, r.data.toNat))
  | .fault _ => none
  | .refused _ => none

/-- One step of an engine to which the word is presented. -/
def present (s : State) (w : CommandWord) : Result := step (s.presented (.command w))

/-! ## Decoding: words written out bit by bit from 30_encoding R45, R48 -/

theorem test_decode_init : decode 0b0001_0000_0000_0000_0000_0000_0000_0000_0000#36 = .ok .init := by decide
theorem test_decode_load :
    decode 0b0010_0000_0000_0000_0000_1010_1100_1110_0001#36 = .ok (.load 0xACE1#32) := by decide
theorem test_decode_get : decode 0b0011_1111_1111_1111_1111_1111_1111_1111_1111#36 = .ok .get := by decide
theorem test_decode_inc : decode 0b0100_0000_0000_0000_0000_0000_0000_0000_0000#36 = .ok .inc := by decide
theorem test_decode_dec : decode 0b0101_0000_0000_0000_0000_0000_0000_0000_0000#36 = .ok .dec := by decide
theorem test_decode_seqlen : decode 0b0110_0000_0000_0000_0000_0000_0000_0000_0000#36 = .ok .seqlen := by decide
theorem test_decode_lkd : decode 0b1000_0000_0000_0000_0000_0000_0000_0000_0000#36 = .ok .lkd := by decide
theorem test_decode_lkdi :
    decode 0b1001_0000_0000_0000_0000_1101_0000_0000_1000#36 = .ok (.lkdi 0xD008#32) := by decide
theorem test_decode_lks : decode 0b1010_0000_0000_0000_0000_0000_0000_0000_0000#36 = .ok .lks := by decide
theorem test_decode_lksi :
    decode 0b1011_1011_0110_1110_1101_1011_0000_0000_0011#36 = .ok (.lksi 0xB6EDB003#32) := by decide

/-- V10: the reserved opcodes. -/
theorem test_decode_reserved :
    [0x000000000#36, 0x700000000#36, 0xC00000000#36, 0xD00000000#36, 0xE00000000#36, 0xFFFFFFFFF#36].all
      (fun w => (decode w).toOption.isNone) = true := by decide

theorem test_decodeTableWord :
    decodeTableWord 40 0x20000ACE1 = some (.load 0xACE1#32) ∧ decodeTableWord 40 0x1000000000 = none := by decide

/-! ## The Tap Mask Compiler and the Table Builder -/

/-- 40_tap_mask_compiler R66: the two mask columns, all 31 rows. -/
theorem test_masks_of_the_informative_table :
    informativeTaps.map (fun e => ((fwdMaskOf e.1 e.2).toNat, (invMaskOf (fwdMaskOf e.1 e.2)).toNat)) =
      [(0x3, 0x3), (0x6, 0x5), (0xC, 0x9), (0x14, 0x09), (0x30, 0x21), (0x60, 0x41), (0xB8, 0x71), (0x110, 0x021),
       (0x240, 0x081), (0x500, 0x201), (0x829, 0x053), (0x100D, 0x001B), (0x2015, 0x002B), (0x6000, 0x4001),
       (0xD008, 0xA011), (0x12000, 0x04001), (0x20400, 0x00801), (0x40023, 0x00047), (0x90000, 0x20001),
       (0x140000, 0x080001), (0x300000, 0x200001), (0x420000, 0x040001), (0xE10000, 0xC20001), (0x1200000, 0x0400001),
       (0x2000023, 0x0000047), (0x4000013, 0x0000027), (0x9000000, 0x2000001), (0x14000000, 0x08000001),
       (0x20000029, 0x00000053), (0x48000000, 0x10000001), (0x80200003, 0x00400007)] := by decide

/-- V5a: the sparse table of the source's scenario, `[(10, 0xB6EDB003), (15, 0x6DAD6D81)]`. -/
theorem test_spt_width_32 : cfg32.spt = [⟨10#32, 0xB6EDB003#32⟩, ⟨15#32, 0x6DAD6D81#32⟩] := by decide

/-- V5b: the reverse table at width 3. -/
theorem test_rev_width_3 :
    (List.range 8).map (fun a => (cfgWrap.rev (BitVec.ofNat 3 a)).map BitVec.toNat) =
      [some 7, some 0, some 6, some 2, some 5, some 4, some 1, some 3] := by decide

/-- V5c: the cycle-completeness check on six tap sets of width 4, and where the walk of `{4, 2}` fails. -/
theorem test_cycle_check :
    [[4, 3], [4, 1], [4, 2], [4], [3], [2, 1]].map (fun l => (Config.mk 4 l false false 0 0 0).cycleCheck) =
      [true, true, false, false, false, false] := by decide

theorem test_walk_fails_at_6 :
    (Config.mk 4 [4, 2] false false 0 0 0).exhaustiveWalk.toOption = none ∧
    (match (Config.mk 4 [4, 2] false false 0 0 0).exhaustiveWalk with
      | .error e => e = .repeated 6 1
      | .ok _ => False) := ⟨rfl, rfl⟩

/-! ## The commands, one step each -/

/-- V4: `INIT` with a nonzero `imm` from `0xBEEF`. -/
theorem test_init : view (present (engine cfg16 0xBEEF#16) 0x1DEADBEEF#36) = some (1, false, 0, some (.ok, 0)) := by decide
/-- V4. -/
theorem test_load : view (present (engine cfg16 1#16) 0x20000ACE1#36) = some (0xACE1, false, 0, some (.ok, 0)) := by decide
/-- V10: operand bit 16 set, the register not loaded. -/
theorem test_load_wide :
    view (present (engine cfg16 1#16) 0x200010000#36) = some (1, true, 2, some (.fault, 2)) := by decide
/-- V4. -/
theorem test_get : view (present (engine cfg16 0xACE1#16) 0x300000000#36) = some (0xACE1, false, 0, some (.ok, 0xACE1)) := by
  decide
/-- V4: `0x5670 ^ 0xD008`. -/
theorem test_inc : view (present (engine cfg16 0xACE1#16) 0x400000000#36) = some (0x8678, false, 0, some (.ok, 0)) := by decide
/-- V2: `up(0xFFFFFFFF)` at width 32. -/
theorem test_inc_32 :
    view (present (engine cfg32 0xFFFFFFFF#32) 0x400000000#36) = some (0xFFDFFFFC, false, 0, some (.ok, 0)) := by decide
/-- V4: `0xFFFF` steps back to `0x5FEF`. -/
theorem test_dec : view (present (engine cfg16 0xFFFF#16) 0x500000000#36) = some (0x5FEF, false, 0, some (.ok, 0)) := by decide
/-- V11: without a tap at `W` the steps are no inverses, `down(0x4) = 0x8`. -/
theorem test_dec_no_top :
    view (present (engine cfgNoTop 0x4#4) 0x500000000#36) = some (0x8, false, 0, some (.ok, 0)) := by decide
/-- V4, for `W = 32`. -/
theorem test_seqlen :
    view (present (engine cfg32 1#32) 0x600000000#36) = some (1, false, 0, some (.ok, 0xFFFFFFFF)) := by decide
/-- P6, line 3. -/
theorem test_lkd : view (present (engine Config.sample 0xD#4) 0x800000000#36) = some (0xD, false, 0, some (.ok, 4)) := by decide
/-- P5, line 4: no Direct Index. -/
theorem test_lkd_absent_index :
    view (present (engine cfg16 0x8678#16) 0x800000000#36) = some (0x8678, true, 1, some (.fault, 1)) := by decide
/-- V9: `LKDI 0` answers the sentinel. -/
theorem test_lkdi_zero :
    view (present (engine Config.sample 0xA#4) 0x900000000#36) = some (0xA, false, 0, some (.absent, 0xF)) := by decide
/-- V10: both conditions hold, the opcode is checked first. -/
theorem test_lkdi_priority :
    view (present (engine cfg16 1#16) 0x900010000#36) = some (1, true, 1, some (.fault, 1)) := by decide
/-- V6b: position 17, found at offset 2 from the sample at 15. -/
theorem test_lks :
    view (present (engine cfg32 0xDB5B5B62#32) 0xA00000000#36) = some (0xDB5B5B62, false, 0, some (.ok, 17)) := by decide
/-- V8: the wrapped result 7 is not reduced. -/
theorem test_lks_wrap : view (present (engine cfgWrap 1#3) 0xA00000000#36) = some (1, false, 0, some (.ok, 7)) := by decide
/-- V7: position 10 is found although the range ends at 10. -/
theorem test_lksi_window :
    view (present (engine ⟨4, [4, 3], false, true, 2, 10, 3⟩ 1#4) 0xB0000000B#36) =
      some (1, false, 0, some (.ok, 10)) := by decide
/-- 43_search_index R97: `LKSI 0x1` is `ABSENT`, its position below `SMIN`. -/
theorem test_lksi_absent :
    view (present (engine Config.sample 0xA#4) 0xB00000001#36) = some (0xA, false, 0, some (.absent, 0)) := by decide

/-! ## The faulted state, reset, idling -/

/-- V10: a reserved word on a faulted engine does not overwrite the cause. -/
theorem test_faulted_refuses :
    view (present faulted16 0x000000000#36) = some (0x1234, true, 2, some (.fault, 2)) := by decide
/-- V10: `INIT` does not clear the fault. -/
theorem test_faulted_init :
    view (present faulted16 0x100000000#36) = some (0x1234, true, 2, some (.fault, 2)) := by decide
/-- V12. -/
theorem test_reset_input : view (step (faulted16.presented .reset)) = some (1, false, 0, none) := by decide
/-- 60_exceptions R126. -/
theorem test_idle : view (step (engine cfg16 0xACE1#16)) = some (0xACE1, false, 0, none) := by decide
/-- 30_encoding R55, P6: a word presented next is the one that runs. -/
theorem test_withFetchWord :
    view (step (State.reset.withFetchWord 40 0x20000000D)) = some (0xD, false, 0, some (.ok, 0)) := by decide

/-! ## Ill-formed terms, one for each check -/

theorem test_wf_accepts :
    Config.sample.wf = true ∧ cfg16.wf = true ∧ cfg32.wf = true ∧ cfgWrap.wf = true ∧ cfgNoTop.wf = true := by decide
theorem test_wf1_refuses_width_1 : (Config.mk 1 [1] false false 0 0 0).wf1 = false := by decide
theorem test_wf1_refuses_width_33 : (Config.mk 33 [33] false false 0 0 0).wf1 = false := by decide
theorem test_wf2_refuses_no_taps : (Config.mk 4 [] false false 0 0 0).wf2 = false := by decide
theorem test_wf2_refuses_tap_0 : (Config.mk 4 [4, 0] false false 0 0 0).wf2 = false := by decide
theorem test_wf2_refuses_tap_above_W : (Config.mk 4 [5, 4] false false 0 0 0).wf2 = false := by decide
theorem test_wf2_refuses_a_tap_twice : (Config.mk 4 [4, 3, 4] false false 0 0 0).wf2 = false := by decide
/-- V5a: `SSTEP = 0`; `SMIN = 5, SMAX = 4`; `W = 4` with `SMAX = 16`. -/
theorem test_wf3_refuses_stride_0 : (Config.mk 4 [4, 3] false true 2 11 0).wf3 = false := by decide
theorem test_wf3_refuses_inverted_range : (Config.mk 4 [4, 3] false true 5 4 1).wf3 = false := by decide
theorem test_wf3_refuses_range_past_the_cycle : (Config.mk 4 [4, 3] false true 2 16 3).wf3 = false := by decide
theorem test_wf3_refuses_results_past_32_bits :
    (Config.mk 32 [32, 22, 2, 1] false true 0 4294967295 2147483649).wf3 = false := by decide
/-- V5c: a Direct Index over `{4, 2}`. -/
theorem test_wf4_refuses_short_cycle : (Config.mk 4 [4, 2] true false 0 0 0).wf4 = false := by decide
theorem test_elaborate_refuses :
    elaborate (Config.mk 4 [4, 2] true false 0 0 0) = .refused .illFormedConfiguration := rfl
theorem test_instr_refuses_absent_index : Instr.present cfg16 .lkd = false ∧ Instr.present cfg16 (.lksi 1#32) = false := by
  decide
theorem test_instr_refuses_wide_operand :
    Instr.operandFits Config.sample (.load 16#32) = false ∧ Instr.operandFits Config.sample (.load 15#32) = true := by decide

/-! ## Witnesses: the hypotheses of the statements can be met -/

theorem wellFormed16 : cfg16.WellFormed :=
  ⟨by decide, by decide, (by intro h; cases h), (by intro h; cases h)⟩

theorem wellFormed32 : cfg32.WellFormed :=
  ⟨by decide, by decide, fun _ => by decide, (by intro h; cases h)⟩

theorem wellFormedWrap : cfgWrap.WellFormed :=
  ⟨by decide, by decide, fun _ => by decide, (by intro h; cases h)⟩

theorem wellFormedNoTop : cfgNoTop.WellFormed :=
  ⟨by decide, by decide, (by intro h; cases h), (by intro h; cases h)⟩

theorem cycleCompleteSample : Config.sample.CycleComplete := by
  have h : ∀ j, j < 15 → ∀ i, i < j → Config.sample.stateAt i ≠ Config.sample.stateAt j := by decide
  exact ⟨fun i j hij hj => h j hj i hij, by decide⟩

theorem cycleCompleteWrap : cfgWrap.CycleComplete := by
  have h : ∀ j, j < 7 → ∀ i, i < j → cfgWrap.stateAt i ≠ cfgWrap.stateAt j := by decide
  exact ⟨fun i j hij hj => h j hj i hij, by decide⟩

theorem wellFormedSample : Config.sample.WellFormed :=
  ⟨by decide, by decide, fun _ => by decide, fun _ => cycleCompleteSample⟩

/-- `ResetLeavesTheSpecValues`: a faulted engine to which reset is presented, and a Direct Index. -/
theorem witness_reset :
    (∃ rest, (faulted16.presented .reset).inputs = .reset :: rest) ∧ Config.sample.WellFormed ∧
      Config.sample.hasDirect = true := ⟨⟨[], rfl⟩, wellFormedSample, rfl⟩

/-- `InitWritesOneAsLoadOneAndResetDo`, `IncStepsForward`, `GetAnswersTheRegister`, `SeqlenAnswersTheSequenceLength`, each
clause: not faulted with a width of at least 2, faulted, the corner values of the register, a bit at the width. -/
theorem witness_engine_commands :
    (State.reset.arch.fault = false ∧ 2 ≤ State.reset.cfg.W) ∧ faulted16.arch.fault = true ∧
    (engine cfg16 0#16).arch.state = 0#16 ∧ (engine cfg16 1#16).arch.state = 1#16 ∧ (engine cfg16 2#16).arch.state = 2#16 ∧
    (engine cfg16 0#16).arch.fault = false ∧ cfg16.W ≤ 16 ∧ cfg32.W ≤ 32 :=
  ⟨by decide, rfl, rfl, rfl, rfl, rfl, by decide, by decide⟩

/-- `LoadWritesAnOperandThatFits`, `LkdiAnswersThePositionOfItsOperand`, `LksiAnswersTheSearchOfItsOperand`: the last operand
that fits and the first that does not, at width 4, and the last at width 32. -/
theorem witness_operands :
    (15#32).toNat < 2 ^ State.reset.cfg.W ∧ 2 ^ State.reset.cfg.W ≤ (16#32).toNat ∧
    (0xFFFFFFFF#32).toNat < 2 ^ cfg32.W ∧ State.reset.arch.fault = false ∧ (15#32 : Imm) ≠ 0#32 := by decide

/-- `DecStepsBackwardAndUndoesInc`: the corner value `2^(W-1)`, and an engine with a tap at its width. -/
theorem witness_dec :
    (engine cfg16 0x8000#16).arch.state = BitVec.twoPow 16 15 ∧ (engine cfg16 0x8000#16).arch.fault = false ∧
    cfg16.WellFormed ∧ cfg16.W ∈ cfg16.taps := ⟨rfl, rfl, wellFormed16, by decide⟩

/-- `LkdAnswersThePositionOfTheRegister` and `LkdiAnswersThePositionOfItsOperand`: a Direct Index with the register at 0, at
1, at the forward mask, at 2; and no Direct Index. -/
theorem witness_direct :
    Config.sample.WellFormed ∧ Config.sample.hasDirect = true ∧ (engine Config.sample 0#4).arch.state = 0#4 ∧
    (engine Config.sample 0xC#4).arch.state = Config.sample.fwdMask ∧ (engine Config.sample 2#4).arch.state = 2#4 ∧
    (1#4 : BitVec 4) ≠ 0#4 ∧ (engine Config.sample 1#4).arch.fault = false ∧
    cfg16.hasDirect = false ∧ (engine cfg16 1#16).arch.fault = false :=
  ⟨wellFormedSample, rfl, rfl, rfl, rfl, by decide, rfl, rfl, rfl⟩

/-- `LksAnswersTheSearchOfTheRegister`, `LksiAnswersTheSearchOfItsOperand`: a Search Index with a tap at the width; none. -/
theorem witness_search :
    cfg32.WellFormed ∧ cfg32.hasSearch = true ∧ cfg32.W ∈ cfg32.taps ∧ (State.resetOf cfg32).arch.fault = false ∧
    cfg16.hasSearch = false ∧ (State.resetOf cfg16).arch.fault = false :=
  ⟨wellFormed32, rfl, by decide, rfl, rfl, rfl⟩

/-- `ImmediateLookupsDoNotReadTheRegister`: two registers, each of the three commands. -/
theorem witness_immediate_lookups :
    (engine Config.sample 5#4).cfg = (engine Config.sample 9#4).cfg ∧
    (∃ t t', exec (.lkdi 7#32) (engine Config.sample 9#4) = .next t ∧ exec (.lkdi 7#32) (engine Config.sample 5#4) = .next t') ∧
    (∃ t t', exec (.lksi 7#32) (engine Config.sample 9#4) = .next t ∧ exec (.lksi 7#32) (engine Config.sample 5#4) = .next t') ∧
    (∃ t t', exec .seqlen (engine Config.sample 9#4) = .next t ∧ exec .seqlen (engine Config.sample 5#4) = .next t') :=
  ⟨rfl, ⟨_, _, rfl, rfl⟩, ⟨_, _, rfl, rfl⟩, ⟨_, _, rfl, rfl⟩⟩

/-- `DecodeOfEncodeIsTheCommand`: words that decode to each command with an operand, at the largest one. -/
theorem witness_decode :
    decode 0x2FFFFFFFF#36 = .ok (.load 0xFFFFFFFF#32) ∧ decode 0x9FFFFFFFF#36 = .ok (.lkdi 0xFFFFFFFF#32) ∧
    decode 0xBFFFFFFFF#36 = .ok (.lksi 0xFFFFFFFF#32) := by decide

/-- `ImmediateIsIgnoredExactlyWithoutAnOperand`: an opcode of each kind and two immediates. -/
theorem witness_immediate :
    0xA#4 ∈ [0x1#4, 0x3#4, 0x4#4, 0x5#4, 0x6#4, 0x8#4, 0xA#4] ∧ 0xB#4 ∈ [0x2#4, 0x9#4, 0xB#4] ∧
    (0#32 : Imm) ≠ 0x80000000#32 := by decide

/-- `StepRunsTheDecodedCommand`: a word that decodes, presented. -/
theorem witness_step :
    (State.reset.presented (.command 0x400000000#36)).inputs = .command 0x400000000#36 :: [] ∧
    decode 0x400000000#36 = .ok .inc := ⟨rfl, by decide⟩

/-- `DispatcherDecidesInOrder`: a faulted engine; an opcode that is not valid, with the index absent and reserved; an operand
too wide, the first at width 16; one that fits, the last. -/
theorem witness_dispatcher :
    faulted16.arch.fault = true ∧
    (¬(8#4 ∈ [1#4, 2#4, 3#4, 4#4, 5#4, 6#4] ∨ (8#4 ∈ [8#4, 9#4] ∧ cfg16.hasDirect = true) ∨
      (8#4 ∈ [10#4, 11#4] ∧ cfg16.hasSearch = true))) ∧
    (2#4 ∈ [2#4, 9#4, 11#4] ∧ cfg16.W < 32 ∧ (0x10000#32 : Imm).extractLsb' 16 16 ≠ 0#16) ∧
    (0xFFFF#32 : Imm).extractLsb' 16 16 = 0#16 ∧ (2#4 ∈ [1#4, 2#4, 3#4, 4#4, 5#4, 6#4]) := by decide

/-- `ReservedWordsRaiseReservedOp`, `AnIdleEngineHoldsItsRegisters`: the first and the last reserved opcode, and an engine
with nothing presented. -/
theorem witness_reserved :
    0x0#4 ∈ [0x0#4, 0x7#4, 0xC#4, 0xD#4, 0xE#4, 0xF#4] ∧ 0xF#4 ∈ [0x0#4, 0x7#4, 0xC#4, 0xD#4, 0xE#4, 0xF#4] ∧
    (State.reset.presented (.command (assemble 0xF#4 1#32))).inputs = .command (assemble 0xF#4 1#32) :: [] ∧
    State.reset.arch.fault = false ∧ State.reset.inputs = [] := by decide

/-- `OperandIsLegalExactlyBelowTwoToTheW`: an operand that does not fit, with the index present and with it absent. -/
theorem witness_operand_range :
    operand Config.sample.W 16#32 = none ∧ Instr.present Config.sample (.lkdi 16#32) = true ∧
    operand cfg16.W 0x10000#32 = none ∧ Instr.present cfg16 (.lkdi 0x10000#32) = false ∧
    (operand Config.sample.W 15#32).isSome = true := by decide

/-- `EveryCommandIsAnsweredOnce`, `AbsentIsAnsweredOnlyByLookups`: a well-formed engine and a word, answered `ABSENT`. -/
theorem witness_answers :
    Config.sample.WellFormed ∧
    ∃ t, step ((engine Config.sample 0#4).presented (.command 0x800000000#36)) = .next t ∧ t.rsp = some ⟨.absent, 15#32⟩ :=
  ⟨wellFormedSample, _, rfl, by decide⟩

/-- `FaultEntryWritesOnlyFaultAndCause`, `FcauseHoldsTheFirstCause`: a step into the faulted state, with each cause. -/
theorem witness_fault_entry :
    (∃ t, step (State.reset.presented (.command 0x000000000#36)) = .next t ∧ t.arch.fault = true ∧ t.arch.fcause = 1#2) ∧
    (∃ t, step (State.reset.presented (.command 0x200000010#36)) = .next t ∧ t.arch.fault = true ∧ t.arch.fcause = 2#2) ∧
    (∀ rest, (State.reset.presented (.command 0x000000000#36)).inputs ≠ .reset :: rest) ∧
    (State.reset.arch.fault = false ↔ State.reset.arch.fcause = 0#2) ∧
    (∃ t, step (faulted16.presented .reset) = .next t) ∧ (∃ t, step (faulted16.presented (.command 0#36)) = .next t) :=
  ⟨⟨_, rfl, rfl, rfl⟩, ⟨_, rfl, rfl, rfl⟩, fun _ h => by simp [State.presented] at h, by decide, ⟨_, rfl⟩, ⟨_, rfl⟩⟩

/-- `OnlyResetLeavesTheFaultedState`. -/
theorem witness_faulted : faulted16.arch.fault = true := rfl

/-- `StepKeepsTheInvariant`: a faulted engine that meets the invariant, and its step. -/
theorem witness_invariant : faulted16.Inv ∧ ∃ t, step (faulted16.presented (.command 0#36)) = .next t :=
  ⟨⟨wellFormed16, by decide, by decide, fun h => by cases h⟩, ⟨_, rfl⟩⟩

/-- `ReachableTriples`: a well-formed configuration, a reachable engine, triples of all three kinds, and a width below 32. -/
theorem witness_reachable :
    cfg16.WellFormed ∧ (∃ t, State.Reachable cfg16 t) ∧ cfg16.W < 32 ∧
    ((true = false ∧ (2#2 : BitVec 2) = 0#2) ∨ (true = true ∧ ((2#2 : BitVec 2) = 1#2 ∨ ((2#2 : BitVec 2) = 2#2 ∧ cfg16.W < 32)))) :=
  ⟨wellFormed16, ⟨_, [], [], rfl⟩, by decide, by decide⟩

/-- `FrameOfTheWritingCommands`, `FrameOfTheReadingCommands`: next states, faulted and not, and a fault entry of each. -/
theorem witness_frames :
    (∃ t, exec .inc State.reset = .next t) ∧ (∃ t, exec (.load 16#32) State.reset = .next t ∧ t.arch.fault = true) ∧
    (∃ t, exec .init faulted16 = .next t) ∧ (∃ t, exec .lkd State.reset = .next t) ∧
    (∃ t, exec (.lksi 16#32) State.reset = .next t ∧ t.arch.fault = true) ∧ (∃ t, exec .lks (State.resetOf cfg16) = .next t) :=
  ⟨⟨_, rfl⟩, ⟨_, rfl, rfl⟩, ⟨_, rfl⟩, ⟨_, rfl⟩, ⟨_, rfl, rfl⟩, ⟨_, rfl⟩⟩

/-- `NoRunChangesConfigurationOrTables`: a run of a command and a reset. -/
theorem witness_run : ∃ t rs, runInputs [.command 0x400000000#36, .reset] State.reset = .next (t, rs) := ⟨_, _, rfl⟩

/-- `ElaborationAcceptsTheWellFormed`, the configurations that are not well-formed: width 1. -/
theorem witness_illFormed : ¬(Config.mk 1 [1] false false 0 0 0).WellFormed := fun h => by
  have := h.wf1
  revert this
  decide

/-- The statements about masks and steps: configurations with and without a tap at the width, at widths 4 and 32, a state
with its top bit set and one without, and a permuted tap list. -/
theorem witness_masks_and_steps :
    cfgNoTop.WellFormed ∧ cfgNoTop.W ∉ cfgNoTop.taps ∧ cfg32.WellFormed ∧ cfg32.W ∈ cfg32.taps ∧ cfgNoTop.W < 32 ∧
    (8#4 : BitVec cfgNoTop.W).getLsbD (cfgNoTop.W - 1) = true ∧ (7#4 : BitVec cfgNoTop.W).getLsbD (cfgNoTop.W - 1) = false ∧
    List.Perm [4, 3] [3, 4] ∧ 0 < cfgNoTop.W ∧ (8#4 : BitVec cfgNoTop.W) ≠ 0#4 :=
  ⟨wellFormedNoTop, by decide, wellFormed32, by decide, by decide, by decide, by decide, by decide, by decide, by decide⟩

/-- `LockUpState`: an engine at 0 that steps. -/
theorem witness_lock_up :
    (engine cfg16 0#16).arch.state = 0#16 ∧ ∃ t, step ((engine cfg16 0#16).presented (.command 0x400000000#36)) = .next t :=
  ⟨rfl, ⟨_, rfl⟩⟩

/-- `MaximalLengthProperty`, `StateAtFacts`, `SteppingWrapsAround`: a cycle-complete configuration, one that is not, and
engines at the last position and at position 0. -/
theorem witness_cycles :
    Config.sample.WellFormed ∧ Config.sample.CycleComplete ∧ ¬cfgNoTop.CycleComplete ∧
    (engine Config.sample 2#4).arch.state = Config.sample.stateAt (Config.sample.seqLen - 1) ∧
    (engine Config.sample 1#4).arch.state = Config.sample.stateAt 0 ∧ (engine Config.sample 1#4).arch.fault = false :=
  ⟨wellFormedSample, cycleCompleteSample, fun h => h.1 0 3 (by decide) (by decide) (by decide), rfl, rfl, rfl⟩

/-- `NumberOfSamples`, `SparseTableClosedForm`: a table of three samples, the first and last index and the one past it, an
empty range, a range no longer than the stride. -/
theorem witness_samples :
    Config.sample.hasSearch = true ∧ 0 < Config.sample.nsamp ∧ 2 < Config.sample.nsamp ∧ Config.sample.nsamp ≤ 3 ∧
    (∃ e e', Config.sample.readSpt 0 = some e ∧ Config.sample.readSpt 2 = some e') ∧
    (Config.mk 4 [4, 3] false true 7 7 4).smin = (Config.mk 4 [4, 3] false true 7 7 4).smax ∧
    0 < cfgWrap.smax - cfgWrap.smin ∧ cfgWrap.smax - cfgWrap.smin ≤ cfgWrap.sstep :=
  ⟨rfl, by decide, by decide, by decide, ⟨_, _, rfl, rfl⟩, rfl, by decide, by decide⟩

/-- `ExhaustiveWalkDecidesCycleCompleteness`: a walk that passes, one that repeats, one that does not return. -/
theorem witness_walks :
    (∃ l, Config.sample.exhaustiveWalk = .ok l) ∧ (∃ p x, cfgNoTop.exhaustiveWalk = .error (.repeated p x)) ∧
    (∃ x, (Config.mk 1 [] false false 0 0 0).exhaustiveWalk = .error (.noReturn x)) :=
  ⟨⟨_, rfl⟩, ⟨_, _, rfl⟩, ⟨_, rfl⟩⟩

/-- `ReverseTableInvertsTheWalk`, `DirectLookupIsTotal`, `DirectLookupFollowsTheSteps`, `TheTwoIndexesAgree`: both indexes,
a nonzero query the search finds, the first and the last position. -/
theorem witness_both_indexes :
    Config.sample.WellFormed ∧ Config.sample.hasDirect = true ∧ Config.sample.hasSearch = true ∧
    searchLookup Config.sample 0xB#4 = ⟨.ok, 10#32⟩ ∧ (0xB#4 : BitVec Config.sample.W) ≠ 0#4 ∧
    0 < Config.sample.seqLen ∧ 14 < Config.sample.seqLen ∧ (1#4 : BitVec State.reset.cfg.W) ≠ 0#4 ∧ State.reset.arch.fault = false :=
  ⟨wellFormedSample, rfl, rfl, by decide, by decide, by decide, by decide, by decide, rfl⟩

/-- `SearchLookupTakesTheFirstMatch`: the match of query `0xF` is at offset 1 with sample 2, and nothing matches before; the
query `0x9` has no match; an empty table. -/
theorem witness_first_match :
    (∃ e, 1 < Config.sample.sstep ∧ Config.sample.readSpt 2 = some e ∧ Config.sample.down^[1] 0xF#4 = e.st) ∧
    (∀ o' < 2, ∀ i' < 3, (o' < 1 ∨ (o' = 1 ∧ i' < 2)) →
      (Config.sample.readSpt i').all (fun e' => decide (Config.sample.down^[o'] 0xF#4 ≠ e'.st)) = true) ∧
    (∀ o < 3, ∀ i < 3,
      (Config.sample.readSpt i).all (fun e => decide (Config.sample.down^[o] 0x9#4 ≠ e.st)) = true) ∧
    (Config.mk 4 [4, 3] false true 7 7 4).nsamp = 0 :=
  ⟨⟨_, by decide, rfl, by decide⟩, by decide, by decide, by decide⟩

/-- `SearchLookupIsSound`, `SearchLookupIsCompleteOnTheEffectiveWindow`, `SearchResultIsNotReduced`: a window that fits in
one cycle with its first and last position, a result in it, and one past the cycle. -/
theorem witness_windows :
    Config.sample.WellFormed ∧ Config.sample.CycleComplete ∧ Config.sample.W ∈ Config.sample.taps ∧
    Config.sample.nsamp * Config.sample.sstep ≤ Config.sample.seqLen ∧
    (Config.sample.smin ≤ 2 ∧ 2 < Config.sample.wend) ∧ (Config.sample.smin ≤ 10 ∧ 10 < Config.sample.wend) ∧
    searchLookup Config.sample 0x6#4 = ⟨.ok, 2#32⟩ ∧
    cfgWrap.WellFormed ∧ cfgWrap.CycleComplete ∧ searchLookup cfgWrap 1#3 = ⟨.ok, 7#32⟩ ∧ cfgWrap.seqLen ≤ 7 :=
  ⟨wellFormedSample, cycleCompleteSample, by decide, by decide, by decide, by decide, by decide, wellFormedWrap,
    cycleCompleteWrap, by decide, by decide⟩

/-- `StepAndRunAreThoseOfTheTriple`: a command and a faulting word on the triple, and a run with a
reset in it. -/
theorem witness_triple :
    Config.sample.WellFormed ∧
    (State.reset.presented (.command 0x400000000#36)).inputs = .command 0x400000000#36 :: [] ∧
    transition Config.sample (Arch.reset 4) 0x400000000#36 = some (⟨0xC#4, false, 0#2⟩, ⟨.ok, 0#32⟩) ∧
    transition Config.sample (Arch.reset 4) 0x000000000#36 = some (⟨0x1#4, true, 1#2⟩, ⟨.fault, 1#32⟩) ∧
    runTriple Config.sample [.command 0x000000000#36, .reset, .command 0x400000000#36] (Arch.reset 4) =
      some (⟨0xC#4, false, 0#2⟩, [⟨.fault, 1#32⟩, ⟨.ok, 0#32⟩]) :=
  ⟨wellFormedSample, rfl, by decide, by decide, by decide⟩

/-- `SafeRunsAreTheRunsOfFaultlessCommands`: a safe run with a lookup of 0 in it, and a faulted engine. -/
theorem witness_safe_run :
    Config.sample.WellFormed ∧ SafeRun [.command 0x900000000#36, .reset, .command 0x20000000F#36] State.reset ∧
    faulted16.arch.fault = true :=
  ⟨wellFormedSample, ⟨rfl, _, _, rfl, rfl, by decide⟩, rfl⟩

/-- 60_exceptions R117: the faulted state is no start and no end of a safe run, though the run has no response. -/
theorem test_safe_run_refuses_faulted : ¬SafeRun [] faulted16 := fun h => by cases h.1

end Sys2Proof.Tests
end

namespace Sys2Proof.Machine

/-! # 10_state: reset, the fault cause, and the reachable triples -/

/-! ## Steps that take each kind of input, and what they keep -/

section Step

variable {s t : State}

theorem step_reset {rest : List Input} (h : s.inputs = .reset :: rest) :
    step s = .next (s.takeInput rest).resetRegisters := by
  simp [step, h]

theorem step_keeps_cfg (h : step s = .next t) : t.cfg = s.cfg := by
  obtain ⟨_, rfl⟩ | ⟨rest, _, rfl⟩ | ⟨w, rest, a, r, _, _, _, rfl⟩ := step_effect h <;> rfl

/-- The cause codes are 1 and 2 (60_exceptions R112). -/
theorem Cause.code_eq_one_or_two (c : Cause) : c.code = 1#2 ∨ c.code = 2#2 := by
  cases c <;> simp [Cause.code]

/-- A command keeps `fault` and `fcause`, or is a fault entry from `fault = 0`. -/
theorem Effect.keeps_fault_or_enters {W : Nat} {a : Arch W} {o : Arch W × Response} (h : Effect a o) :
    (o.1.fault = a.fault ∧ o.1.fcause = a.fcause) ∨
      (a.fault = false ∧ o.1.fault = true ∧ ∃ c : Cause, o.1.fcause = c.code ∧ (c = .operandRange → W < 32)) := by
  cases h with
  | refused => exact .inl ⟨rfl, rfl⟩
  | wrote => exact .inl ⟨rfl, rfl⟩
  | answered => exact .inl ⟨rfl, rfl⟩
  | faulted hf c hc => exact .inr ⟨hf, rfl, c, rfl, hc⟩

/-- What a step does to `fault` and `fcause` (10_state R18, R19): reset clears both, a fault entry from `fault = 0` writes
both, and every other step keeps both. -/
theorem step_fault_fcause (h : step s = .next t) :
    ((∃ rest, s.inputs = .reset :: rest) ∧ t.arch.fault = false ∧ t.arch.fcause = 0#2) ∨
      (t.arch.fault = s.arch.fault ∧ t.arch.fcause = s.arch.fcause) ∨
      (s.arch.fault = false ∧ t.arch.fault = true ∧
        ∃ c : Cause, t.arch.fcause = c.code ∧ (c = .operandRange → s.cfg.W < 32)) := by
  obtain ⟨_, rfl⟩ | ⟨rest, hin, rfl⟩ | ⟨w, rest, a, r, _, _, heff, rfl⟩ := step_effect h
  · exact .inr (.inl ⟨rfl, rfl⟩)
  · exact .inl ⟨⟨rest, hin⟩, rfl, rfl⟩
  · exact .inr heff.keeps_fault_or_enters

/-- The equivalence of `fault = 0` and `fcause = 0` is kept by every step (10_state R19). -/
theorem step_keeps_fault_iff_cause (h : step s = .next t) (hs : s.arch.fault = false ↔ s.arch.fcause = 0#2) :
    t.arch.fault = false ↔ t.arch.fcause = 0#2 := by
  obtain ⟨_, hf, hc⟩ | ⟨hf, hc⟩ | ⟨_, hf, c, hc, _⟩ := step_fault_fcause h
  · simp [hf, hc]
  · rw [hf, hc, hs]
  · cases c <;> simp [hf, hc, Cause.code]

end Step

/-! ## The invariant -/

theorem State.resetOf_inv {cfg : Config} (h : cfg.WellFormed) : (State.resetOf cfg).Inv where
  wellFormed := h
  faultIffCause := by simp
  causeNotThree := by simp
  noRangeAt32 := by simp

/-- What the owner presents is no part of the invariant. -/
theorem State.Inv.presented {s : State} (h : s.Inv) (inp : Input) : (s.presented inp).Inv :=
  ⟨h.wellFormed, h.faultIffCause, h.causeNotThree, h.noRangeAt32⟩

theorem State.Inv.step {s t : State} (hs : s.Inv) (h : step s = .next t) : t.Inv where
  wellFormed := step_keeps_cfg h ▸ hs.wellFormed
  faultIffCause := step_keeps_fault_iff_cause h hs.faultIffCause
  causeNotThree := by
    obtain ⟨_, _, hc⟩ | ⟨_, hc⟩ | ⟨_, _, c, hc, _⟩ := step_fault_fcause h
    · simp [hc]
    · exact hc ▸ hs.causeNotThree
    · cases c <;> simp [hc, Cause.code]
  noRangeAt32 := by
    intro hWt
    have hW : s.cfg.W = 32 := step_keeps_cfg h ▸ hWt
    obtain ⟨_, _, hc⟩ | ⟨_, hc⟩ | ⟨_, _, c, hc, hlt⟩ := step_fault_fcause h
    · simp [hc]
    · exact hc ▸ hs.noRangeAt32 hW
    · cases c with
      | reservedOp => simp [hc, Cause.code]
      | operandRange => exact absurd (hlt rfl) (by omega)

/-- The triples that meet the invariant are those of 10_state R28. -/
theorem State.Inv.fault_fcause {s : State} (h : s.Inv) :
    (s.arch.fault = false ∧ s.arch.fcause = 0#2) ∨
      (s.arch.fault = true ∧ (s.arch.fcause = 1#2 ∨ (s.arch.fcause = 2#2 ∧ s.cfg.W < 32))) := by
  obtain ⟨hwf, hiff, h3, hrange⟩ := h
  cases hf : s.arch.fault with
  | false => exact .inl ⟨rfl, hiff.mp hf⟩
  | true =>
    have h0 : s.arch.fcause ≠ 0#2 := by simpa [hf] using hiff
    have hcases : ∀ c : BitVec 2, c ≠ 0#2 → c ≠ 3#2 → c = 1#2 ∨ c = 2#2 := by decide
    refine .inr ⟨rfl, (hcases _ h0 h3).imp_right fun h2 => ⟨h2, ?_⟩⟩
    exact lt_of_le_of_ne hwf.wf1.2 fun hW => hrange hW h2

/-! ## Runs -/

section Run

variable {cfg : Config} {s t u : State}

theorem runInputs_cons_next {inp : Input} {rest : List Input} {rs : List Response} :
    runInputs (inp :: rest) s = .next (u, rs) ↔
      ∃ t rs', step (s.presented inp) = .next t ∧ runInputs rest t = .next (u, rs') ∧ rs = t.rsp.toList ++ rs' := by
  simp only [runInputs]
  cases step (s.presented inp) with
  | fault f => simp
  | refused r => simp
  | next t =>
    cases hrun : runInputs rest t with
    | fault f => simp [hrun]
    | refused r => simp [hrun]
    | next o => cases o; simp [hrun, eq_comm]

/-- What presenting an input and every step keep, a run keeps. -/
theorem runInputs_induction {P : State → Prop} (hpresented : ∀ s inp, P s → P (s.presented inp))
    (hstep : ∀ s t, P s → step s = .next t → P t) {ins : List Input} {rs : List Response}
    (h : runInputs ins s = .next (t, rs)) (hs : P s) : P t := by
  induction ins generalizing s rs with
  | nil => cases h; exact hs
  | cons inp rest ih =>
    obtain ⟨s', rs', hone, hrest, _⟩ := runInputs_cons_next.mp h
    exact ih hrest (hstep _ _ (hpresented s inp hs) hone)

theorem runInputs_keeps_cfg {ins : List Input} {rs : List Response} (h : runInputs ins s = .next (t, rs)) :
    t.cfg = s.cfg :=
  runInputs_induction (P := fun x => x.cfg = s.cfg) (fun _ _ hx => hx) (fun _ _ hx hxy => (step_keeps_cfg hxy).trans hx)
    h rfl

theorem runInputs_append {ins ins' : List Input} {rs rs' : List Response} (h : runInputs ins s = .next (t, rs))
    (h' : runInputs ins' t = .next (u, rs')) : runInputs (ins ++ ins') s = .next (u, rs ++ rs') := by
  induction ins generalizing s rs with
  | nil => cases h; exact h'
  | cons inp rest ih =>
    obtain ⟨x, rs₁, hone, hrest, rfl⟩ := runInputs_cons_next.mp h
    exact runInputs_cons_next.mpr ⟨x, rs₁ ++ rs', hone, ih hrest, List.append_assoc ..⟩

/-! ## Reachable engines -/

theorem State.Reachable.resetOf (cfg : Config) : State.Reachable cfg (State.resetOf cfg) := ⟨[], [], rfl⟩

theorem State.Reachable.cfg_eq (h : State.Reachable cfg t) : t.cfg = cfg := by
  obtain ⟨ins, rs, hrun⟩ := h
  exact runInputs_keeps_cfg hrun

theorem State.Reachable.inv (hcfg : cfg.WellFormed) (h : State.Reachable cfg t) : t.Inv := by
  obtain ⟨ins, rs, hrun⟩ := h
  exact runInputs_induction (fun _ inp hx => hx.presented inp) (fun _ _ hx => hx.step) hrun (State.resetOf_inv hcfg)

theorem State.Reachable.step {inp : Input} (h : State.Reachable cfg t) (hstep : step (t.presented inp) = .next u) :
    State.Reachable cfg u := by
  obtain ⟨ins, rs, hrun⟩ := h
  have hone : runInputs [inp] t = .next (u, u.rsp.toList ++ []) := runInputs_cons_next.mpr ⟨u, [], hstep, rfl, rfl⟩
  exact ⟨_, _, runInputs_append hrun hone⟩

/-- A reachable engine reaches what the transition of any command word answers. -/
theorem State.Reachable.command {a b : Arch cfg.W} {ins : List Input} {rsp : Option Response} {w : CommandWord}
    {r : Response} (h : State.Reachable cfg ⟨cfg, a, ins, rsp⟩) (hw : transition cfg a w = some (b, r)) :
    State.Reachable cfg ⟨cfg, b, [], some r⟩ :=
  h.step (inp := .command w) <| by
    rw [step_command (s := State.presented _ _) rfl]
    simp only [State.presented, hw]
    rfl

end Run

/-! ## The words that reach every triple -/

theorem decode_encode (i : Instr) : decode (encode i) = .ok i := by
  cases i <;> simp [decode, encode, opField_assemble, immField_assemble, opcode, immOf]

section Words

variable {cfg : Config} {a : Arch cfg.W}

theorem transition_encode (i : Instr) : transition cfg a (encode i) = command cfg i a := by
  simp [transition, decode_encode]

/-- The all-zero word is reserved (30_encoding R49). -/
theorem transition_zero (h : a.fault = false) : transition cfg a 0#36 = a.raiseFault .reservedOp := by
  have hd : decode 0#36 = .error (.reservedOp 0#4) := by decide
  simpa [transition, hd] using reservedCommand_accepting h

theorem loadCommand_of_lt {imm : Imm} (h : a.fault = false) (hlt : imm.toNat < 2 ^ cfg.W) :
    loadCommand cfg imm a = some (a.writeState (imm.setWidth cfg.W), okResponse 0#32) := by
  rw [loadCommand, Arch.dispatch_valid h rfl, Arch.withOperand_of_lt hlt]
  rfl

theorem loadCommand_of_ge {imm : Imm} (h : a.fault = false) (hge : 2 ^ cfg.W ≤ imm.toNat) :
    loadCommand cfg imm a = a.raiseFault .operandRange := by
  rw [loadCommand, Arch.dispatch_valid h rfl, Arch.withOperand_of_ge hge]

/-- `LOAD v` writes any register value in a width of at most 32. -/
theorem loadCommand_setWidth (hW : cfg.W ≤ 32) (h : a.fault = false) (v : BitVec cfg.W) :
    loadCommand cfg (v.setWidth 32) a = some (a.writeState v, okResponse 0#32) := by
  have hlt : (v.setWidth 32).toNat < 2 ^ cfg.W :=
    (BitVec.toNat_setWidth_of_le (b := v) hW).symm ▸ v.isLt
  rw [loadCommand_of_lt h hlt, BitVec.setWidth_setWidth_of_le v hW, BitVec.setWidth_eq]

/-- Below width 32 some operand does not fit: `2^W`. -/
theorem loadCommand_twoPow (hW : cfg.W < 32) (h : a.fault = false) :
    loadCommand cfg (BitVec.twoPow 32 cfg.W) a = a.raiseFault .operandRange :=
  loadCommand_of_ge h (by rw [BitVec.toNat_twoPow_of_lt hW])

/-- Every register value is reachable without a fault: reset, then `LOAD v`. -/
theorem reachable_accepting (hW : cfg.W ≤ 32) (v : BitVec cfg.W) :
    State.Reachable cfg ⟨cfg, ⟨v, false, 0#2⟩, [], some (okResponse 0#32)⟩ :=
  (State.Reachable.resetOf cfg).command
    ((transition_encode (.load (v.setWidth 32))).trans (loadCommand_setWidth hW rfl v))

end Words

/-! ## The position of the reset state -/

/-- The walk starts at state 1, position 0, so that is what slot 1 of `REV` holds (42_table_builder R91). -/
theorem rev_one {cfg : Config} (hW : 0 < cfg.W) : cfg.rev 1#cfg.W = some 0#cfg.W := by
  have hlen : cfg.seqLen = (cfg.seqLen - 1) + 1 := by
    have : 2 ^ 1 ≤ 2 ^ cfg.W := Nat.pow_le_pow_right (by decide) hW
    unfold Config.seqLen
    omega
  have hne : 1#cfg.W ≠ 0#cfg.W := by simpa using hW.ne'
  rw [Config.rev, if_neg hne, Config.walkRecords, hlen, recordsFrom]
  simp

/-- A direct lookup of state 1 reports position 0 (70_reset_and_hazards R128). -/
theorem directLookup_one {cfg : Config} (hW : 0 < cfg.W) (hd : cfg.hasDirect = true) :
    directLookup cfg 1#cfg.W = some ⟨.ok, 0#32⟩ := by
  have hne : 0#cfg.W ≠ cfg.sentinel := by
    intro h
    have := congrArg (fun x => x.getLsbD 0) h
    simp [Config.sentinel, hW] at this
  simp [directLookup, Config.readRev, hd, rev_one hW, hne]

/-! ## The obligations -/

/-- Settles O28: a reachable engine meets the invariant, which leaves those triples; each of them is reached by `LOAD v`,
followed by the all-zero word for cause 1 and by `LOAD 2^W` for cause 2. -/
theorem reachableTriples : Obligations.ReachableTriples := by
  unfold Obligations.ReachableTriples
  refine fun cfg hcfg => ⟨fun t ht => ?_, fun v f c hfc => ?_⟩
  · simpa only [ht.cfg_eq] using (ht.inv hcfg).fault_fcause
  · have hload := reachable_accepting hcfg.wf1.2 v
    obtain ⟨rfl, rfl⟩ | ⟨rfl, rfl | ⟨rfl, hW⟩⟩ := hfc
    · exact ⟨_, hload, rfl⟩
    · exact ⟨_, hload.command (transition_zero rfl), rfl⟩
    · exact ⟨_, hload.command ((transition_encode (.load _)).trans (loadCommand_twoPow hW rfl)), rfl⟩

/-- Settles O25, from what one step does to `fault` and `fcause`. -/
theorem fcauseHoldsTheFirstCause : Obligations.FcauseHoldsTheFirstCause := by
  unfold Obligations.FcauseHoldsTheFirstCause
  refine ⟨fun _ => rfl, fun s t h ⟨rest, hin⟩ => ?_, fun s t h hin => ?_, fun s t h => step_keeps_fault_iff_cause h⟩
  · rw [step_reset hin] at h
    cases h
    exact ⟨rfl, rfl⟩
  · obtain ⟨⟨rest, hreset⟩, _⟩ | ⟨hf, hc⟩ | ⟨hs, hf, c, hc, _⟩ := step_fault_fcause h
    · exact absurd hreset (hin rest)
    · exact ⟨fun hs => ⟨hc, hf.trans hs⟩, fun hs => .inl ⟨hc, hf.trans hs⟩⟩
    · exact ⟨fun hs' => by simp [hs] at hs', fun _ => .inr ⟨hc ▸ c.code_eq_one_or_two, hf⟩⟩

/-- Settles O1: reset writes the three registers and nothing else, and state 1 is position 0 of the walk. -/
theorem resetLeavesTheSpecValues : Obligations.ResetLeavesTheSpecValues := by
  unfold Obligations.ResetLeavesTheSpecValues
  refine ⟨fun _ => ⟨rfl, rfl, rfl, rfl, rfl⟩, fun s rest hin => step_reset hin, fun cfg hcfg hd => ⟨rfl, ?_⟩⟩
  exact directLookup_one (Nat.lt_of_lt_of_le Nat.two_pos hcfg.wf1.1) hd

end Sys2Proof.Machine

namespace Sys2Proof.Machine

/-! # 30_encoding: the immediate, the dispatcher's order, the operand range, and the answers `ABSENT` -/

/-! ## What a word decodes to (30_encoding R48, R49, R51) -/

section Decode

variable {w : CommandWord} {i : Instr}

/-- A word that decodes has the opcode of its command and, where the command has an operand, its operand. -/
theorem decode_ok_fields (h : decode w = .ok i) :
    opField w = opcode i ∧ (opcode i ∈ [2#4, 9#4, 11#4] → immField w = immOf i) := by
  unfold decode at h
  split at h <;> cases h <;>
    exact ⟨BitVec.eq_of_toNat_eq ‹_›, by simp [opcode, immOf]⟩

/-- A word that decodes to nothing has a reserved opcode. -/
theorem decode_error_opField {e : DecodeError} (h : decode w = .error e) :
    opField w ∈ [0#4, 7#4, 12#4, 13#4, 14#4, 15#4] := by
  have hop : ∀ op : BitVec 4, op ∈ [0#4, 7#4, 12#4, 13#4, 14#4, 15#4] ∨
      ∃ n ∈ [1, 2, 3, 4, 5, 6, 8, 9, 10, 11], op.toNat = n := by decide
  refine (hop (opField w)).resolve_right ?_
  rintro ⟨n, hn, hw⟩
  fin_cases hn <;> simp [decode, hw] at h

theorem decode_assemble_reserved {op : BitVec 4} (hop : op ∈ [0#4, 7#4, 12#4, 13#4, 14#4, 15#4]) (imm : Imm) :
    decode (assemble op imm) = .error (.reservedOp op) := by
  fin_cases hop <;> simp [decode, opField_assemble]

theorem decode_assemble_of_no_operand {op : BitVec 4} (hop : op ∈ [1#4, 3#4, 4#4, 5#4, 6#4, 8#4, 10#4])
    (imm imm' : Imm) : decode (assemble op imm) = decode (assemble op imm') := by
  fin_cases hop <;> simp [decode, opField_assemble]

theorem decode_assemble_injective {op : BitVec 4} (hop : op ∈ [2#4, 9#4, 11#4]) {imm imm' : Imm}
    (h : decode (assemble op imm) = decode (assemble op imm')) : imm = imm' := by
  fin_cases hop <;> simpa [decode, opField_assemble, immField_assemble] using h

theorem immField_encode (i : Instr) : immField (encode i) = immOf i := immField_assemble _ _

end Decode

/-! ## The operand (30_encoding R47) -/

section Operand

variable {W : Nat} {imm : Imm}

theorem operand_eq_none_iff_extractLsb' :
    operand W imm = none ↔ W < 32 ∧ imm.extractLsb' W (32 - W) ≠ 0#(32 - W) := by
  unfold operand
  split <;> simp_all

theorem operand_eq_none_iff_le : operand W imm = none ↔ 2 ^ W ≤ imm.toNat := by
  obtain ⟨hlt, ho⟩ | ⟨hge, ho⟩ := operand_cases W imm
  · simpa [ho] using hlt
  · simpa [ho] using hge

theorem operand_eq_none_iff_bit : operand W imm = none ↔ ∃ k, W ≤ k ∧ k < 32 ∧ imm.getLsbD k = true := by
  rw [operand_eq_none_iff_le]
  constructor
  · intro hge
    obtain ⟨k, hk, hbit⟩ := Nat.exists_ge_and_testBit_of_ge_two_pow hge
    exact ⟨k, hk, BitVec.lt_of_getLsbD hbit, hbit⟩
  · rintro ⟨k, hk, _, hbit⟩
    exact (Nat.pow_le_pow_right Nat.two_pos hk).trans (Nat.ge_two_pow_of_testBit hbit)

theorem eq_setWidth_of_operand {v : BitVec W} (h : operand W imm = some v) : v = imm.setWidth W := by
  obtain ⟨_, ho⟩ | ⟨_, ho⟩ := operand_cases W imm <;> simp_all

theorem operand_32 (imm : Imm) : operand 32 imm = some imm := by
  simpa using operand_of_lt imm.isLt

theorem eq_zero_of_setWidth_eq_zero (hlt : imm.toNat < 2 ^ W) (h : imm.setWidth W = 0#W) : imm = 0#32 := by
  have hval := congrArg BitVec.toNat h
  rw [BitVec.toNat_setWidth, Nat.mod_eq_of_lt hlt] at hval
  exact BitVec.eq_of_toNat_eq (by simpa using hval)

theorem Arch.dispatch_withOperand_of_none {a : Arch W} {valid : Bool} {k : BitVec W → Answer W}
    (h : a.fault = false) (hv : valid = true) (ho : operand W imm = none) :
    a.dispatch valid (a.withOperand imm k) = a.raiseFault .operandRange := by
  rw [Arch.dispatch_valid h hv, Arch.withOperand_of_ge (operand_eq_none_iff_le.mp ho)]

end Operand

/-! ## The checks a command passes, read off its opcode (30_encoding R58) -/

section Checks

variable {cfg : Config} {i : Instr} {a : Arch cfg.W}

theorem present_iff_opcode : i.present cfg = true ↔
    opcode i ∈ [1#4, 2#4, 3#4, 4#4, 5#4, 6#4] ∨ (opcode i ∈ [8#4, 9#4] ∧ cfg.hasDirect = true) ∨
      (opcode i ∈ [10#4, 11#4] ∧ cfg.hasSearch = true) := by
  cases i <;> simp [Instr.present, opcode]

/-- No configuration makes a reserved opcode valid. -/
theorem reserved_opcode_not_valid {op : BitVec 4} (hop : op ∈ [0#4, 7#4, 12#4, 13#4, 14#4, 15#4]) :
    ¬(op ∈ [1#4, 2#4, 3#4, 4#4, 5#4, 6#4] ∨ (op ∈ [8#4, 9#4] ∧ cfg.hasDirect = true) ∨
      (op ∈ [10#4, 11#4] ∧ cfg.hasSearch = true)) := by
  fin_cases hop <;> simp

theorem operandFits_eq_false_iff_opcode :
    i.operandFits cfg = false ↔ opcode i ∈ [2#4, 9#4, 11#4] ∧ operand cfg.W (immOf i) = none := by
  cases i <;> simp [Instr.operandFits, opcode, immOf]

theorem command_of_faulted (h : a.fault = true) : command cfg i a = a.refuseFaulted := by
  cases i <;> exact Arch.dispatch_faulted h

theorem command_of_not_present (h : a.fault = false) (hp : i.present cfg = false) :
    command cfg i a = a.raiseFault .reservedOp := by
  cases i <;> exact Arch.dispatch_invalid h hp

theorem command_of_not_fits (h : a.fault = false) (hp : i.present cfg = true) (hw : i.operandFits cfg = false) :
    command cfg i a = a.raiseFault .operandRange := by
  obtain ⟨hop, ho⟩ := operandFits_eq_false_iff_opcode.mp hw
  cases i
  case load => exact Arch.dispatch_withOperand_of_none h hp ho
  case lkdi => exact Arch.dispatch_withOperand_of_none h hp ho
  case lksi => exact Arch.dispatch_withOperand_of_none h hp ho
  all_goals simp [opcode] at hop

end Checks

/-! ## Steps that take a command word -/

section Step

variable {s : State} {w : CommandWord} {rest : List Input}

theorem transition_of_decode_error {cfg : Config} {a : Arch cfg.W} {e : DecodeError} (h : decode w = .error e) :
    transition cfg a w = reservedCommand a := by
  simp [transition, h]

theorem transition_of_decode_ok {cfg : Config} {a : Arch cfg.W} {i : Instr} (h : decode w = .ok i) :
    transition cfg a w = command cfg i a := by
  simp [transition, h]

theorem transition_of_faulted {cfg : Config} {a : Arch cfg.W} (h : a.fault = true) :
    transition cfg a w = a.refuseFaulted := by
  cases hd : decode w with
  | ok i => rw [transition_of_decode_ok hd, command_of_faulted h]
  | error e => rw [transition_of_decode_error hd, reservedCommand_faulted h]

theorem step_of_decode_ok {i : Instr} (hin : s.inputs = .command w :: rest) (hd : decode w = .ok i) :
    step s = exec i { s with inputs := rest } := by
  simp only [step, hin, hd]
  rfl

/-- A step whose command raises a fault: `fault`, `fcause` and the answer, and nothing else (60_exceptions R113). -/
theorem step_of_raiseFault {c : Cause} (hin : s.inputs = .command w :: rest)
    (h : transition s.cfg s.arch w = s.arch.raiseFault c) :
    step s = .next { s with
      inputs := rest, arch.fault := true, arch.fcause := c.code, rsp := some (faultResponse c.code) } := by
  rw [step_command hin, h]
  rfl

end Step

/-! ## The obligations on the immediate, the operand and the dispatcher -/

/-- Settles O16: a step sees of a word only what it decodes to, and decoding looks at `imm` for three opcodes only. -/
theorem immediateIsIgnoredExactlyWithoutAnOperand : Obligations.ImmediateIsIgnoredExactlyWithoutAnOperand := by
  unfold Obligations.ImmediateIsIgnoredExactlyWithoutAnOperand
  refine ⟨fun s rest op imm imm' hop => ?_, fun op imm imm' hop hne h => hne (decode_assemble_injective hop h),
    fun i hi => ?_⟩
  · simp only [step, decode_assemble_of_no_operand hop imm imm']
    rfl
  · rw [immField_encode]
    fin_cases hi <;> rfl

/-- Settles O18: the checks of `command`, read off the opcode and the immediate that a decoded word carries. -/
theorem dispatcherDecidesInOrder : Obligations.DispatcherDecidesInOrder := by
  unfold Obligations.DispatcherDecidesInOrder
  rintro s w rest _ _ hin rfl rfl valid wide hvalid hwide
  refine ⟨fun hf => by rw [step_command hin, transition_of_faulted hf]; rfl, ?_⟩
  cases hd : decode w with
  | error e =>
    have hnot : ¬valid := mt hvalid.mp (reserved_opcode_not_valid (decode_error_opField hd))
    refine ⟨fun hf _ => ?_, fun _ hv => absurd hv hnot, fun _ hv => absurd hv hnot⟩
    exact step_of_raiseFault hin ((transition_of_decode_error hd).trans (reservedCommand_accepting hf))
  | ok i =>
    obtain ⟨hop, himm⟩ := decode_ok_fields hd
    have hpresent : valid ↔ i.present s.cfg = true := by
      rw [hvalid, present_iff_opcode, ← hop, opField]
    have hfits : wide ↔ i.operandFits s.cfg = false := by
      rw [hwide, operandFits_eq_false_iff_opcode, ← operand_eq_none_iff_extractLsb', ← hop, opField]
      refine and_congr_right fun hmem => ?_
      rw [← himm (hop ▸ hmem), immField]
    rw [hpresent, hfits, Bool.not_eq_true, Bool.not_eq_false]
    refine ⟨fun hf hp => ?_, fun hf hp hw => ?_, fun _ hp hw => ⟨i, rfl, ?_, step_of_decode_ok hin hd⟩⟩
    · exact step_of_raiseFault hin ((transition_of_decode_ok hd).trans (command_of_not_present hf hp))
    · exact step_of_raiseFault hin ((transition_of_decode_ok hd).trans (command_of_not_fits hf hp hw))
    · simp [Instr.wf, hp, hw]

/-- Settles O20, from what the operand form answers bit by bit and from the dispatcher's second and third check. -/
theorem operandIsLegalExactlyBelowTwoToTheW : Obligations.OperandIsLegalExactlyBelowTwoToTheW := by
  unfold Obligations.OperandIsLegalExactlyBelowTwoToTheW
  refine ⟨fun W imm => ⟨operand_eq_none_iff_bit, fun v hv k hk => ?_⟩, operand_32, fun s imm i hi hf ho => ?_⟩
  · rw [eq_setWidth_of_operand hv]
    simp [hk]
  · have hw : i.operandFits s.cfg = false := by
      obtain rfl | rfl | rfl := hi <;> simp [Instr.operandFits, ho]
    rw [exec_eq_deliver]
    exact ⟨fun hp => by rw [command_of_not_fits hf hp hw]; rfl, fun hp => by rw [command_of_not_present hf hp]; rfl⟩

/-- Settles O19: a word with a reserved opcode decodes to nothing, and the dispatcher raises `RESERVED_OP` for it. -/
theorem reservedWordsRaiseReservedOp : Obligations.ReservedWordsRaiseReservedOp := by
  unfold Obligations.ReservedWordsRaiseReservedOp
  refine ⟨fun s op imm rest hop hin hf => ?_, by decide⟩
  have hd := decode_assemble_reserved hop imm
  exact step_of_raiseFault hin ((transition_of_decode_error hd).trans (reservedCommand_accepting hf))

/-! ## The answers `ABSENT` (30_encoding R53) -/

/-- The positions that the walk records lie below its end (42_table_builder R88). -/
theorem recordsFrom_pos_lt {W : Nat} {fwd x : BitVec W} {n p : Nat} {e : Nat × BitVec W}
    (h : e ∈ recordsFrom fwd n p x) : e.1 < p + n := by
  induction n generalizing p x with
  | zero => simp [recordsFrom] at h
  | succ n ih =>
    obtain rfl | h := List.mem_cons.mp h
    · simp
    · have := ih h
      omega

/-- The sentinel, `2^W - 1`, is no position: only slot 0 of `REV` holds it (42_table_builder R91). -/
theorem eq_zero_of_rev_eq_sentinel {cfg : Config} {q : BitVec cfg.W} (h : cfg.rev q = some cfg.sentinel) :
    q = 0#cfg.W := by
  by_contra hq
  rw [Config.rev, if_neg hq] at h
  obtain ⟨e, hfind, he⟩ := Option.map_eq_some_iff.mp h
  have hlt : e.1 < 2 ^ cfg.W - 1 := by
    simpa [Config.seqLen] using recordsFrom_pos_lt (List.mem_of_find?_eq_some hfind)
  have hval := congrArg BitVec.toNat he
  rw [BitVec.toNat_ofNat, Nat.mod_eq_of_lt (by omega), Config.sentinel, BitVec.toNat_allOnes] at hval
  omega

theorem eq_zero_of_directLookup_absent {cfg : Config} {q : BitVec cfg.W} {r : Response}
    (h : directLookup cfg q = some r) (hr : r.status = .absent) : q = 0#cfg.W := by
  obtain ⟨w, hread, rfl⟩ := Option.map_eq_some_iff.mp h
  split at hr
  next hw =>
    refine eq_zero_of_rev_eq_sentinel ?_
    rw [Config.readRev] at hread
    split at hread
    · exact hw ▸ hread
    · cases hread
  next => cases hr

section Dispatched

variable {W : Nat} {a : Arch W} {o : Arch W × Response}

/-- Neither a refusal nor a fault entry answers `ABSENT`: the command passed the dispatcher's first two checks. -/
theorem Arch.dispatch_absent {valid : Bool} {body : Answer W} (h : a.dispatch valid body = some o)
    (ho : o.2.status = .absent) : body = some o := by
  obtain ⟨_, h⟩ | ⟨_, _, h⟩ | ⟨_, _, h⟩ := Arch.dispatch_some h
  · cases h; cases ho
  · cases h; cases ho
  · exact h

/-- And its operand, if it has one, fits. -/
theorem Arch.withOperand_absent {imm : Imm} {k : BitVec W → Answer W} (h : a.withOperand imm k = some o)
    (ho : o.2.status = .absent) : imm.toNat < 2 ^ W ∧ k (imm.setWidth W) = some o := by
  obtain h | ⟨_, h⟩ := Arch.withOperand_some h
  · exact h
  · cases h; cases ho

end Dispatched

theorem eq_zero_of_respondDirect_absent {cfg : Config} {a : Arch cfg.W} {q : BitVec cfg.W} {o : Arch cfg.W × Response}
    (h : respondDirect cfg a q = some o) (ho : o.2.status = .absent) : q = 0#cfg.W := by
  obtain ⟨r, hr, rfl⟩ := respondDirect_some h
  exact eq_zero_of_directLookup_absent hr ho

/-- The commands that answer `ABSENT`. -/
theorem command_absent {cfg : Config} {i : Instr} {a : Arch cfg.W} {o : Arch cfg.W × Response}
    (h : command cfg i a = some o) (ho : o.2.status = .absent) :
    i = .lks ∨ (∃ imm, i = .lksi imm) ∨ (i = .lkd ∧ a.state = 0#cfg.W) ∨ i = .lkdi 0#32 := by
  cases i <;> have hb := Arch.dispatch_absent h ho
  case lks => exact .inl rfl
  case lksi imm => exact .inr (.inl ⟨imm, rfl⟩)
  case lkd => exact .inr (.inr (.inl ⟨rfl, eq_zero_of_respondDirect_absent hb ho⟩))
  case lkdi imm =>
    obtain ⟨hlt, hb⟩ := Arch.withOperand_absent hb ho
    have himm := eq_zero_of_setWidth_eq_zero hlt (eq_zero_of_respondDirect_absent hb ho)
    exact .inr (.inr (.inr (congrArg Instr.lkdi himm)))
  case load =>
    obtain ⟨_, hb⟩ := Arch.withOperand_absent hb ho
    cases hb; cases ho
  all_goals cases hb; cases ho

/-- Settles O22: a reserved word answers no `ABSENT`, and of the commands only the searches and a direct lookup of 0 do. -/
theorem absentIsAnsweredOnlyByLookups : Obligations.AbsentIsAnsweredOnlyByLookups := by
  unfold Obligations.AbsentIsAnsweredOnlyByLookups
  refine ⟨rfl, rfl, rfl, fun x => by cases x <;> decide, fun s t w rest d _ hin hstep hrsp => ?_⟩
  rw [step_command hin] at hstep
  obtain ⟨a, r, ho, rfl⟩ := State.deliver_next hstep
  obtain rfl : r = ⟨.absent, d⟩ := Option.some.inj hrsp
  cases hd : decode w with
  | ok i =>
    rw [transition_of_decode_ok hd] at ho
    simpa using command_absent ho rfl
  | error e =>
    rw [transition_of_decode_error hd] at ho
    cases Arch.dispatch_absent ho rfl

end Sys2Proof.Machine

namespace Sys2Proof.Machine

/-! # 40_tap_mask_compiler: the two masks and the literal formula, bit by bit -/

/-! ## The forward mask (R60) -/

section ForwardMask

theorem getLsbD_fwdMaskOf {W i : Nat} {taps : List Nat} :
    (fwdMaskOf W taps).getLsbD i = true ↔ i < W ∧ ∃ t ∈ taps, t - 1 = i := by
  induction taps with
  | nil => simp [fwdMaskOf]
  | cons t taps ih =>
    have hcons : fwdMaskOf W (t :: taps) = 1#W <<< (t - 1) ||| fwdMaskOf W taps := rfl
    have hbit : (1#W <<< (t - 1)).getLsbD i = true ↔ i < W ∧ t - 1 = i := by
      rw [← BitVec.twoPow_eq, BitVec.getLsbD_twoPow]
      simp only [Bool.and_eq_true, decide_eq_true_eq]
      omega
    simp only [hcons, BitVec.getLsbD_or, Bool.or_eq_true, hbit, ih, List.exists_mem_cons_iff]
    tauto

theorem fwdMaskOf_perm {l l' : List Nat} (W : Nat) (h : l.Perm l') : fwdMaskOf W l = fwdMaskOf W l' :=
  BitVec.eq_of_getLsbD_eq fun i _ => by
    rw [Bool.eq_iff_iff]
    simp only [getLsbD_fwdMaskOf, h.mem_iff]

variable {cfg : Config} (hcfg : cfg.WellFormed)
include hcfg

theorem getLsbD_fwdMask_iff {i : Nat} (hi : i < cfg.W) : cfg.fwdMask.getLsbD i = true ↔ i + 1 ∈ cfg.taps := by
  obtain ⟨_, hrange, _⟩ := hcfg.wf2
  rw [Config.fwdMask, getLsbD_fwdMaskOf]
  constructor
  · rintro ⟨_, t, ht, rfl⟩
    rwa [Nat.sub_add_cancel (hrange t ht).1]
  · exact fun ht => ⟨hi, i + 1, ht, rfl⟩

theorem fwdMask_top_iff : cfg.fwdMask.getLsbD (cfg.W - 1) = true ↔ cfg.W ∈ cfg.taps := by
  have hW := hcfg.wf1.1
  rw [getLsbD_fwdMask_iff hcfg (by omega), Nat.sub_add_cancel (by omega)]

theorem fwdMask_ne_zero : cfg.fwdMask ≠ 0#cfg.W := by
  intro hzero
  obtain ⟨hne, hrange, _⟩ := hcfg.wf2
  obtain ⟨t, ht⟩ := List.exists_mem_of_ne_nil _ hne
  obtain ⟨hone, hle⟩ := hrange t ht
  have hbit := (getLsbD_fwdMask_iff hcfg (i := t - 1) (by omega)).mpr (by rwa [Nat.sub_add_cancel hone])
  simp [hzero] at hbit

end ForwardMask

/-! ## The inverse mask (R61) and the literal formula (R62) -/

section InverseMask

variable {W : Nat} {fwd : BitVec W}

@[simp] theorem getLsbD_invMaskOf_zero : (invMaskOf fwd).getLsbD 0 = fwd.getLsbD (W - 1) := by
  cases W with
  | zero => simp
  | succ n => simp [invMaskOf]

@[simp] theorem getLsbD_invMaskOf_succ (i : Nat) :
    (invMaskOf fwd).getLsbD (i + 1) = (decide (i + 1 < W) && fwd.getLsbD i) := by
  simp [invMaskOf]

theorem invMaskOf_eq_rotateLeft (hW : 2 ≤ W) : invMaskOf fwd = fwd.rotateLeft 1 := by
  refine BitVec.eq_of_getLsbD_eq fun i hi => ?_
  rw [BitVec.getLsbD_rotateLeft_of_le (by omega)]
  cases i with
  | zero => simp
  | succ i => rw [getLsbD_invMaskOf_succ, decide_eq_true hi]; simp

@[simp] theorem getLsbD_invLitOf_zero : (invLitOf fwd).getLsbD 0 = fwd.getLsbD (W - 1) := by
  simp [invLitOf]

@[simp] theorem getLsbD_invLitOf_succ (i : Nat) : (invLitOf fwd).getLsbD (i + 1) = fwd.getLsbD i := by
  rcases Nat.lt_or_ge i W with hlt | hge
  · simp [invLitOf, hlt]
  · simp [invLitOf, BitVec.getLsbD_of_ge _ _ hge]

theorem setWidth_invLitOf : (invLitOf fwd).setWidth W = invMaskOf fwd := by
  refine BitVec.eq_of_getLsbD_eq fun i hi => ?_
  rw [BitVec.getLsbD_setWidth, decide_eq_true hi, Bool.true_and]
  cases i with
  | zero => rw [getLsbD_invLitOf_zero, getLsbD_invMaskOf_zero]
  | succ i => rw [getLsbD_invLitOf_succ, getLsbD_invMaskOf_succ, decide_eq_true hi, Bool.true_and]

/-- What the inverse mask shifted right keeps of the forward mask: all but the top bit. -/
theorem invMaskOf_ushiftRight_one : invMaskOf fwd >>> 1 = fwd &&& BitVec.ofNat W (2 ^ (W - 1) - 1) := by
  refine BitVec.eq_of_getLsbD_eq fun i hi => ?_
  rw [BitVec.getLsbD_ushiftRight, Nat.add_comm 1 i, getLsbD_invMaskOf_succ, BitVec.getLsbD_and, BitVec.getLsbD_ofNat,
    Nat.testBit_two_pow_sub_one, decide_eq_true hi, Bool.true_and, Bool.and_comm]
  simp only [Nat.lt_sub_iff_add_lt]

theorem invMaskOf_ushiftRight_one_xor (htop : fwd.getLsbD (W - 1) = true) :
    invMaskOf fwd >>> 1 ^^^ fwd = BitVec.twoPow W (W - 1) := by
  refine BitVec.eq_of_getLsbD_eq fun i hi => ?_
  rw [BitVec.getLsbD_xor, BitVec.getLsbD_ushiftRight, Nat.add_comm 1 i, getLsbD_invMaskOf_succ, BitVec.getLsbD_twoPow]
  by_cases hlast : i = W - 1
  · subst hlast
    have hfull : ¬ W - 1 + 1 < W := by omega
    simp [htop, hfull, hi]
  · have hbelow : i + 1 < W := by omega
    simp [hbelow, Ne.symm hlast]

end InverseMask

/-! ## The backward step, in the register and in the 32-bit container (R62) -/

section Down

theorem getLsbD_mask_or_zero {n : Nat} (b : Bool) (m : BitVec n) (i : Nat) :
    (if b then m else 0#n).getLsbD i = (b && m.getLsbD i) := by
  cases b <;> simp

variable {W : Nat} {fwd s : BitVec W}

theorem getLsbD_down_zero {inv : BitVec W} :
    (down inv s).getLsbD 0 = (s.getLsbD (W - 1) && inv.getLsbD 0) := by
  rw [down, BitVec.getLsbD_xor, getLsbD_mask_or_zero]
  simp

theorem getLsbD_down_succ {inv : BitVec W} {i : Nat} (hi : i + 1 < W) :
    (down inv s).getLsbD (i + 1) = (s.getLsbD i ^^ (s.getLsbD (W - 1) && inv.getLsbD (i + 1))) := by
  rw [down, BitVec.getLsbD_xor, getLsbD_mask_or_zero]
  simp [hi, -BitVec.getLsbD_eq_getElem]

theorem getLsbD_setWidth_32 (hW : W ≤ 32) (i : Nat) : (s.setWidth 32).getLsbD i = s.getLsbD i := by
  rw [BitVec.getLsbD_setWidth, Bool.and_eq_right_iff_imp]
  exact fun hbit => decide_eq_true ((BitVec.lt_of_getLsbD hbit).trans_le hW)

theorem getLsbD_down32_zero (hW : W ≤ 32) :
    (down32 fwd (s.setWidth 32)).getLsbD 0 = (s.getLsbD (W - 1) && fwd.getLsbD (W - 1)) := by
  rw [down32, BitVec.getLsbD_xor, getLsbD_mask_or_zero, getLsbD_setWidth_32 hW, BitVec.getLsbD_setWidth (x := invLitOf fwd),
    getLsbD_invLitOf_zero]
  simp

theorem getLsbD_down32_succ {i : Nat} (hW : W ≤ 32) (hi : i + 1 < 32) :
    (down32 fwd (s.setWidth 32)).getLsbD (i + 1) = (s.getLsbD i ^^ (s.getLsbD (W - 1) && fwd.getLsbD i)) := by
  rw [down32, BitVec.getLsbD_xor, getLsbD_mask_or_zero, getLsbD_setWidth_32 hW, BitVec.getLsbD_shiftLeft,
    Nat.add_sub_cancel, getLsbD_setWidth_32 hW]
  simp [hi]

/-- Below bit `W` the container holds the backward step, whatever the taps. -/
theorem getLsbD_down32_of_lt {i : Nat} (hW : W ≤ 32) (hi : i < W) :
    (down32 fwd (s.setWidth 32)).getLsbD i = (down (invMaskOf fwd) s).getLsbD i := by
  cases i with
  | zero => rw [getLsbD_down32_zero hW, getLsbD_down_zero, getLsbD_invMaskOf_zero]
  | succ i =>
    rw [getLsbD_down32_succ hW (by omega), getLsbD_down_succ hi, getLsbD_invMaskOf_succ]
    simp [hi]

theorem setWidth_down32 (hW : W ≤ 32) : (down32 fwd (s.setWidth 32)).setWidth W = down (invMaskOf fwd) s :=
  BitVec.eq_of_getLsbD_eq fun i hi => by
    rw [BitVec.getLsbD_setWidth, getLsbD_down32_of_lt hW hi]
    simp [hi]

/-- What spills over the register: bit `W` of the container. -/
theorem getLsbD_down32_width (hpos : 0 < W) (hlt : W < 32) :
    (down32 fwd (s.setWidth 32)).getLsbD W = (s.getLsbD (W - 1) && !fwd.getLsbD (W - 1)) := by
  obtain ⟨n, rfl⟩ : ∃ n, W = n + 1 := ⟨W - 1, by omega⟩
  rw [getLsbD_down32_succ hlt.le hlt, Nat.add_sub_cancel]
  cases s.getLsbD n <;> simp

/-- With the forward mask's top bit set nothing spills over, and the container holds the backward step alone. -/
theorem down32_eq_setWidth_down (hW : W ≤ 32) (hpos : 0 < W) (htop : fwd.getLsbD (W - 1) = true) :
    down32 fwd (s.setWidth 32) = (down (invMaskOf fwd) s).setWidth 32 := by
  refine BitVec.eq_of_getLsbD_eq fun i hi => ?_
  rw [BitVec.getLsbD_setWidth]
  rcases lt_trichotomy i W with hlt | rfl | hgt
  · rw [getLsbD_down32_of_lt hW hlt, decide_eq_true hi, Bool.true_and]
  · simp [getLsbD_down32_width hpos hi, htop]
  · obtain ⟨j, rfl⟩ : ∃ j, i = j + 1 := ⟨i - 1, by omega⟩
    have hj : W ≤ j := by omega
    simp [getLsbD_down32_succ hW hi, BitVec.getLsbD_of_ge _ _ hj, BitVec.getLsbD_of_ge _ _ hgt.le]

/-- The spill-over bit is 0 for every state exactly when the forward mask has its top bit; the state `2^(W-1)` shows it. -/
theorem down32_width_false_iff (hpos : 0 < W) (hlt : W < 32) :
    (∀ s : BitVec W, (down32 fwd (s.setWidth 32)).getLsbD W = false) ↔ fwd.getLsbD (W - 1) = true := by
  simp only [getLsbD_down32_width hpos hlt]
  constructor
  · intro h
    have htop : W - 1 < W := by omega
    simpa [BitVec.getLsbD_twoPow, htop] using h (BitVec.twoPow W (W - 1))
  · intro htop s
    simp [htop]

end Down

/-! ## The obligations on the masks -/

/-- Settles O33 (R60): the mask's bits by induction on the taps, the rest from the bits. -/
theorem forwardMaskBitsAreTheTaps : Obligations.ForwardMaskBitsAreTheTaps := by
  unfold Obligations.ForwardMaskBitsAreTheTaps
  exact ⟨fun cfg hcfg => ⟨fun i hi => getLsbD_fwdMask_iff hcfg hi, fwdMask_ne_zero hcfg⟩,
    fun W _ _ h => fwdMaskOf_perm W h, by decide⟩

/-- Settles O34 (R61): both sides bit by bit. -/
theorem inverseMaskIsTheRotatedForwardMask : Obligations.InverseMaskIsTheRotatedForwardMask := by
  unfold Obligations.InverseMaskIsTheRotatedForwardMask
  refine ⟨fun W f hW => ⟨invMaskOf_eq_rotateLeft hW, getLsbD_invMaskOf_zero, fun i hi hlt => ?_⟩, by decide, by decide⟩
  obtain ⟨j, rfl⟩ := Nat.exists_eq_add_of_le' hi
  rw [getLsbD_invMaskOf_succ, decide_eq_true hlt, Bool.true_and, Nat.add_sub_cancel]

/-- Settles O35 (R62): the literal mask and the container step bit by bit, bit `W` among them. -/
theorem literalInverseMaskFormula : Obligations.LiteralInverseMaskFormula := by
  unfold Obligations.LiteralInverseMaskFormula
  intro cfg hcfg
  obtain ⟨htwo, hW⟩ := hcfg.wf1
  have hpos : 0 < cfg.W := by omega
  have hlit : (invLitOf cfg.fwdMask).getLsbD cfg.W = cfg.fwdMask.getLsbD (cfg.W - 1) := by
    simpa only [Nat.sub_add_cancel hpos] using getLsbD_invLitOf_succ (fwd := cfg.fwdMask) (cfg.W - 1)
  exact ⟨setWidth_invLitOf, hlit, fun hlt =>
    ⟨fun s => getLsbD_down32_width hpos hlt,
      (down32_width_false_iff hpos hlt).trans (fwdMask_top_iff hcfg),
      fun s => setWidth_down32 hW,
      fun htap s => down32_eq_setWidth_down hW hpos ((fwdMask_top_iff hcfg).mpr htap)⟩⟩

/-- Settles O36 (R65): the inverse mask's bits, and the forward mask's top bit as the tap at `W`. -/
theorem maskFacts : Obligations.MaskFacts := by
  unfold Obligations.MaskFacts
  intro cfg hcfg
  exact ⟨getLsbD_invMaskOf_zero, fwdMask_top_iff hcfg, fun htap =>
    ⟨invMaskOf_ushiftRight_one, invMaskOf_ushiftRight_one_xor ((fwdMask_top_iff hcfg).mpr htap)⟩⟩

end Sys2Proof.Machine

namespace Sys2Proof.Machine

/-! # 41_engine: the transition functions, the engine commands, and the cycle of states -/

/-! ## The forward step, bit by bit (R67) -/

section Steps

variable {W : Nat} {fwd inv s : BitVec W}

theorem getLsbD_up (i : Nat) :
    (up fwd s).getLsbD i = (s.getLsbD (i + 1) ^^ (s.getLsbD 0 && fwd.getLsbD i)) := by
  rw [up, BitVec.getLsbD_xor, BitVec.getLsbD_ushiftRight, getLsbD_mask_or_zero, Nat.add_comm 1 i]

/-- The top bit of a forward step is the mask's, where the bit shifted out is 1. -/
theorem getLsbD_up_top : (up fwd s).getLsbD (W - 1) = (s.getLsbD 0 && fwd.getLsbD (W - 1)) := by
  rw [getLsbD_up, BitVec.getLsbD_of_ge s (W - 1 + 1) (by omega), Bool.false_xor]

/-! ## The corner cases (R67, R68) -/

theorem up_zero : up fwd 0#W = 0#W := by simp [up]

theorem down_zero : down inv 0#W = 0#W := by simp [down]

theorem up_one (hpos : 0 < W) : up fwd 1#W = fwd := by
  have hshift : 1#W >>> 1 = 0#W := BitVec.eq_of_toNat_eq (by simp [Nat.mod_eq_of_lt (Nat.one_lt_two_pow hpos.ne')])
  rw [up, hshift]
  simp [hpos]

theorem two_lt_two_pow (hW : 2 ≤ W) : 2 < 2 ^ W :=
  Nat.lt_of_lt_of_le (by decide) (Nat.pow_le_pow_right Nat.two_pos hW)

theorem up_two (hW : 2 ≤ W) : up fwd 2#W = 1#W := by
  have hone := Nat.one_lt_two_pow (n := W) (by omega)
  have hshift : 2#W >>> 1 = 1#W := BitVec.eq_of_toNat_eq (by
    simp [Nat.mod_eq_of_lt (two_lt_two_pow hW), Nat.mod_eq_of_lt hone])
  have hbit : (2#W).getLsbD 0 = false := by simp [BitVec.getLsbD_ofNat]
  rw [up, hshift, hbit]
  simp

theorem down_one (hW : 2 ≤ W) : down inv 1#W = 2#W := by
  have hshift : 1#W <<< 1 = 2#W := BitVec.eq_of_toNat_eq (by simp [Nat.shiftLeft_eq])
  have htop : (1#W).getLsbD (W - 1) = false := by
    have : W - 1 ≠ 0 := by omega
    simp [this]
  rw [down, hshift, htop]
  simp

theorem down_twoPow_top (hpos : 0 < W) : down inv (BitVec.twoPow W (W - 1)) = inv := by
  have hshift : BitVec.twoPow W (W - 1) <<< 1 = 0#W := BitVec.eq_of_getLsbD_eq fun i hi => by
    have : ¬ W - 1 = i - 1 ∨ i < 1 := by omega
    rcases this with h | h <;> simp [BitVec.getLsbD_twoPow, h]
  have htop : (BitVec.twoPow W (W - 1)).getLsbD (W - 1) = true := by
    simp [hpos]
  rw [down, hshift, htop]
  simp

theorem up_allOnes (hpos : 0 < W) :
    up fwd (BitVec.allOnes W) = BitVec.ofNat W (2 ^ (W - 1) - 1) ^^^ fwd := by
  have hshift : BitVec.allOnes W >>> 1 = BitVec.ofNat W (2 ^ (W - 1) - 1) :=
    BitVec.eq_of_getLsbD_eq fun i hi => by
      rw [BitVec.getLsbD_ushiftRight, BitVec.getLsbD_allOnes, BitVec.getLsbD_ofNat, Nat.testBit_two_pow_sub_one,
        decide_eq_true hi, Bool.true_and]
      exact decide_eq_decide.mpr (by omega)
  rw [up, hshift]
  simp [hpos]

theorem down_allOnes (hpos : 0 < W) :
    down inv (BitVec.allOnes W) = BitVec.ofNat W (2 ^ W - 2) ^^^ inv := by
  have hshift : BitVec.allOnes W <<< 1 = BitVec.ofNat W (2 ^ W - 2) := by
    have htwo : 2 ≤ 2 ^ W := Nat.le_self_pow hpos.ne' 2
    have hsum : (2 ^ W - 1) * 2 = 2 ^ W - 2 + 2 ^ W := by omega
    apply BitVec.eq_of_toNat_eq
    rw [BitVec.toNat_shiftLeft, BitVec.toNat_allOnes, Nat.shiftLeft_eq, pow_one, hsum, Nat.add_mod_right,
      BitVec.toNat_ofNat]
  have htop : W - 1 < W := by omega
  rw [down, hshift]
  simp [htop]

/-! ## The branch-free forms (R69) -/

theorem setWidth_ofBool_true : (BitVec.ofBool true).setWidth W = 1#W :=
  BitVec.eq_of_toNat_eq (by simp)

theorem mul_bit_eq_mask_or_zero (b : Bool) (m : BitVec W) :
    m * (BitVec.ofBool b).setWidth W = if b then m else 0#W := by
  cases b with
  | false => simp
  | true => rw [setWidth_ofBool_true, BitVec.mul_one, if_pos rfl]

theorem and_neg_bit_eq_mask_or_zero (b : Bool) (m : BitVec W) :
    m &&& (0#W - (BitVec.ofBool b).setWidth W) = if b then m else 0#W := by
  cases b with
  | false => simp
  | true => rw [setWidth_ofBool_true, BitVec.zero_sub, BitVec.neg_one_eq_allOnes, BitVec.and_allOnes, if_pos rfl]

/-! ## Inverses, exactly with a top bit in the forward mask (R70 to R72) -/

theorem down_up (htop : fwd.getLsbD (W - 1) = true) : down (invMaskOf fwd) (up fwd s) = s := by
  refine BitVec.eq_of_getLsbD_eq fun i hi => ?_
  cases i with
  | zero => rw [getLsbD_down_zero, getLsbD_up_top, getLsbD_invMaskOf_zero, htop, Bool.and_true, Bool.and_true]
  | succ i =>
    rw [getLsbD_down_succ hi, getLsbD_up, getLsbD_up_top, getLsbD_invMaskOf_succ, htop, decide_eq_true hi,
      Bool.and_true, Bool.true_and, Bool.xor_assoc, Bool.xor_self, Bool.xor_false]

/-- An injective map of a finite set is a bijection, so its left inverse is its inverse. -/
theorem up_down (htop : fwd.getLsbD (W - 1) = true) : up fwd (down (invMaskOf fwd) s) = s := by
  have hleft : Function.LeftInverse (down (invMaskOf fwd)) (up fwd) := fun _ => down_up htop
  exact hleft.rightInverse_of_surjective (Finite.surjective_of_injective hleft.injective) s

/-- Without the mask's top bit no forward step sets the register's top bit. -/
theorem up_bijective_iff (hpos : 0 < W) : Function.Bijective (up fwd) ↔ fwd.getLsbD (W - 1) = true := by
  constructor
  · intro hbij
    obtain ⟨s, hs⟩ := hbij.surjective (BitVec.twoPow W (W - 1))
    have htop : (s.getLsbD 0 && fwd.getLsbD (W - 1)) = true := by
      rw [← getLsbD_up_top, hs]
      simp [hpos]
    exact (Bool.and_eq_true_iff.mp htop).2
  · exact fun htop => Function.bijective_iff_has_inverse.mpr ⟨_, fun _ => down_up htop, fun _ => up_down htop⟩

/-- Without the mask's top bit no backward step sets bit 0. -/
theorem down_bijective_iff (hpos : 0 < W) :
    Function.Bijective (down (invMaskOf fwd)) ↔ fwd.getLsbD (W - 1) = true := by
  constructor
  · intro hbij
    obtain ⟨s, hs⟩ := hbij.surjective 1#W
    have hlow : (s.getLsbD (W - 1) && fwd.getLsbD (W - 1)) = true := by
      rw [← getLsbD_invMaskOf_zero (fwd := fwd), ← getLsbD_down_zero, hs]
      simp [hpos]
    exact (Bool.and_eq_true_iff.mp hlow).2
  · exact fun htop => Function.bijective_iff_has_inverse.mpr ⟨_, fun _ => up_down htop, fun _ => down_up htop⟩

/-- Without the mask's top bit this state steps forward to the lock-up state (R71). -/
theorem up_shiftLeft_fwd_or_one (htop : fwd.getLsbD (W - 1) = false) : up fwd (fwd <<< 1 ||| 1#W) = 0#W := by
  refine BitVec.eq_of_getLsbD_eq fun i hi => ?_
  have hpos : 0 < W := by omega
  have hlow : (fwd <<< 1 ||| 1#W).getLsbD 0 = true := by simp [hpos]
  rw [getLsbD_up, hlow, Bool.true_and, BitVec.getLsbD_zero]
  by_cases hlast : i = W - 1
  · rw [hlast, htop, BitVec.getLsbD_of_ge _ _ (by omega), Bool.xor_false]
  · have hlt : i + 1 < W := by omega
    have hnext : (fwd <<< 1 ||| 1#W).getLsbD (i + 1) = fwd.getLsbD i := by simp [hlt, -BitVec.getLsbD_eq_getElem]
    rw [hnext, Bool.xor_self]

theorem shiftLeft_fwd_or_one_ne_zero (hpos : 0 < W) : fwd <<< 1 ||| 1#W ≠ 0#W := by
  intro hzero
  have hlow := congrArg (·.getLsbD 0) hzero
  simp [hpos] at hlow

/-! ## The 32-bit container (R74) -/

theorem getLsbD_up32 (hW : W ≤ 32) (i : Nat) : (up32 fwd (s.setWidth 32)).getLsbD i = (up fwd s).getLsbD i := by
  rw [getLsbD_up, up32, BitVec.getLsbD_xor, BitVec.getLsbD_ushiftRight, getLsbD_mask_or_zero, getLsbD_setWidth_32 hW,
    getLsbD_setWidth_32 hW, getLsbD_setWidth_32 hW, Nat.add_comm 1 i]

theorem up32_eq_setWidth_up (hW : W ≤ 32) : up32 fwd (s.setWidth 32) = (up fwd s).setWidth 32 :=
  BitVec.eq_of_getLsbD_eq fun i _ => by rw [getLsbD_up32 hW, getLsbD_setWidth_32 hW]

/-- The container holds the backward step, and at bit `W` what spills over; at width 32 there is no bit `W`. -/
theorem down32_eq_setWidth_down_or (hW : W ≤ 32) (hpos : 0 < W) :
    down32 fwd (s.setWidth 32) = (down (invMaskOf fwd) s).setWidth 32 |||
      (if s.getLsbD (W - 1) && !fwd.getLsbD (W - 1) then BitVec.twoPow 32 W else 0#32) := by
  refine BitVec.eq_of_getLsbD_eq fun i hi => ?_
  rw [BitVec.getLsbD_or, getLsbD_mask_or_zero, getLsbD_setWidth_32 hW, BitVec.getLsbD_twoPow]
  rcases lt_trichotomy i W with hlt | rfl | hgt
  · simp [getLsbD_down32_of_lt hW hlt, hlt.ne']
  · rw [getLsbD_down32_width hpos hi]
    simp [hi]
  · obtain ⟨j, rfl⟩ : ∃ j, i = j + 1 := ⟨i - 1, by omega⟩
    have hj : W ≤ j := by omega
    simp [getLsbD_down32_succ hW hi, BitVec.getLsbD_of_ge _ _ hj, BitVec.getLsbD_of_ge _ _ hgt.le, hgt.ne]

end Steps

end Sys2Proof.Machine

namespace Sys2Proof

open Machine

/-! ## The steps of a configuration -/

section ConfigSteps

variable {cfg : Config} (hcfg : cfg.WellFormed) (htap : cfg.W ∈ cfg.taps)
include hcfg

theorem Config.WellFormed.pos : 0 < cfg.W := Nat.lt_of_lt_of_le Nat.two_pos hcfg.wf1.1

theorem fwdMask_top_eq_false (hno : cfg.W ∉ cfg.taps) : cfg.fwdMask.getLsbD (cfg.W - 1) = false :=
  Bool.eq_false_iff.mpr (mt (fwdMask_top_iff hcfg).mp hno)

theorem Config.up_bijective_iff : Function.Bijective cfg.up ↔ cfg.W ∈ cfg.taps :=
  (Machine.up_bijective_iff hcfg.pos).trans (fwdMask_top_iff hcfg)

theorem Config.down_bijective_iff : Function.Bijective cfg.down ↔ cfg.W ∈ cfg.taps :=
  (Machine.down_bijective_iff hcfg.pos).trans (fwdMask_top_iff hcfg)

include htap

theorem Config.down_up (s : BitVec cfg.W) : cfg.down (cfg.up s) = s :=
  Machine.down_up ((fwdMask_top_iff hcfg).mpr htap)

theorem Config.up_down (s : BitVec cfg.W) : cfg.up (cfg.down s) = s :=
  Machine.up_down ((fwdMask_top_iff hcfg).mpr htap)

end ConfigSteps

/-! ## The states of the walk (R73, R81) -/

section Walk

variable {cfg : Config}

@[simp] theorem Config.stateAt_zero : cfg.stateAt 0 = 1#cfg.W := rfl

theorem Config.stateAt_succ (p : Nat) : cfg.stateAt (p + 1) = cfg.up (cfg.stateAt p) := Function.iterate_succ_apply' ..

theorem Config.stateAt_one (hpos : 0 < cfg.W) : cfg.stateAt 1 = cfg.fwdMask := up_one hpos

theorem one_ne_zero_of_pos {W : Nat} (hpos : 0 < W) : 1#W ≠ 0#W := by simpa using hpos.ne'

theorem Config.seqLen_pos (hpos : 0 < cfg.W) : 0 < cfg.seqLen :=
  Nat.sub_pos_of_lt (Nat.one_lt_two_pow hpos.ne')

theorem card_nonzero (W : Nat) : (Finset.univ.erase 0#W).card = 2 ^ W - 1 := by
  rw [Finset.card_erase_of_mem (Finset.mem_univ _), Finset.card_univ, ← FinEnum.card_eq_fintypeCard,
    FinEnum.card_bitVec]

/-- Cycle-completeness (42_table_builder R89) says that the first return of the walk to 1 is at step `SEQ_LEN`. -/
theorem Config.cycleComplete_iff_minimalPeriod (hpos : 0 < cfg.W) :
    cfg.CycleComplete ↔ Function.minimalPeriod cfg.up 1#cfg.W = cfg.seqLen := by
  constructor
  · rintro ⟨hne, hreturn⟩
    have hper : Function.IsPeriodicPt cfg.up cfg.seqLen 1#cfg.W := hreturn
    refine (hper.minimalPeriod_le (seqLen_pos hpos)).eq_of_not_lt fun hlt => ?_
    exact hne 0 _ (hper.minimalPeriod_pos (seqLen_pos hpos)) hlt Function.iterate_minimalPeriod.symm
  · intro hmin
    refine ⟨fun i j hij hj heq => hij.ne ?_, ?_⟩
    · rw [← hmin] at hj
      exact Function.iterate_injOn_Iio_minimalPeriod (hij.trans hj) hj heq
    · rw [← hmin]
      exact Function.iterate_minimalPeriod

/-- As many distinct states as the first return to 1 takes steps. -/
theorem Config.card_image_stateAt {n : Nat} (hn : n ≤ Function.minimalPeriod cfg.up 1#cfg.W) :
    ((Finset.range n).image cfg.stateAt).card = n := by
  rw [Finset.card_image_of_injOn, Finset.card_range]
  refine Function.iterate_injOn_Iio_minimalPeriod.mono fun p hp => ?_
  exact (Finset.mem_range.mp hp).trans_le hn

/-- A walk that takes in 0 stays there. -/
theorem Config.stateAt_add_eq_zero {p : Nat} (h : cfg.stateAt p = 0#cfg.W) (k : Nat) : cfg.stateAt (p + k) = 0#cfg.W := by
  induction k with
  | zero => exact h
  | succ k ih => rw [← Nat.add_assoc, stateAt_succ, ih]; exact up_zero

section CycleComplete

variable (hcc : cfg.CycleComplete)
include hcc

theorem Config.CycleComplete.stateAt_add_seqLen (p : Nat) : cfg.stateAt (p + cfg.seqLen) = cfg.stateAt p := by
  have hreturn : cfg.up^[cfg.seqLen] 1#cfg.W = 1#cfg.W := hcc.2
  exact (Function.iterate_add_apply cfg.up p cfg.seqLen 1#cfg.W).trans (congrArg _ hreturn)

theorem Config.CycleComplete.stateAt_injective {i j : Nat} (hi : i < cfg.seqLen) (hj : j < cfg.seqLen)
    (h : cfg.stateAt i = cfg.stateAt j) : i = j := by
  rcases lt_trichotomy i j with hlt | heq | hgt
  · exact absurd h (hcc.1 i j hlt hj)
  · exact heq
  · exact absurd h.symm (hcc.1 j i hgt hi)

variable (hpos : 0 < cfg.W)
include hpos

/-- From 0 the walk would not be back at 1 at the next multiple of `SEQ_LEN`. -/
theorem Config.CycleComplete.stateAt_ne_zero (p : Nat) : cfg.stateAt p ≠ 0#cfg.W := by
  intro hzero
  have hreturn : cfg.up^[cfg.seqLen * p] 1#cfg.W = 1#cfg.W := Function.IsPeriodicPt.mul_const hcc.2 p
  have hle : p ≤ cfg.seqLen * p := Nat.le_mul_of_pos_left p (seqLen_pos hpos)
  have hstay := stateAt_add_eq_zero hzero (cfg.seqLen * p - p)
  rw [Nat.add_sub_cancel' hle] at hstay
  exact one_ne_zero_of_pos hpos (hreturn.symm.trans hstay)

/-- The first `SEQ_LEN` states are `2^W - 1` distinct nonzero values, so they are all of them. -/
theorem Config.CycleComplete.exists_stateAt {v : BitVec cfg.W} (hv : v ≠ 0#cfg.W) :
    ∃ p, p < cfg.seqLen ∧ cfg.stateAt p = v := by
  have hsub : (Finset.range cfg.seqLen).image cfg.stateAt ⊆ Finset.univ.erase 0#cfg.W := by
    intro x hx
    obtain ⟨p, _, rfl⟩ := Finset.mem_image.mp hx
    exact Finset.mem_erase.mpr ⟨hcc.stateAt_ne_zero hpos p, Finset.mem_univ _⟩
  have hcard := card_image_stateAt ((cycleComplete_iff_minimalPeriod hpos).mp hcc).ge
  have himage := Finset.eq_of_subset_of_card_le hsub (by rw [hcard, card_nonzero, Config.seqLen])
  have hmem : v ∈ (Finset.range cfg.seqLen).image cfg.stateAt := himage ▸ Finset.mem_erase.mpr ⟨hv, Finset.mem_univ _⟩
  simpa using hmem

theorem Config.CycleComplete.ne_zero_iff_exists_stateAt (v : BitVec cfg.W) :
    v ≠ 0#cfg.W ↔ ∃ p, p < cfg.seqLen ∧ cfg.stateAt p = v :=
  ⟨hcc.exists_stateAt hpos, fun ⟨p, _, hp⟩ => hp ▸ hcc.stateAt_ne_zero hpos p⟩

end CycleComplete

section WellFormed

variable (hcfg : cfg.WellFormed)
include hcfg

/-- Where the walk takes in the nonzero values and no other there is a tap at `W`: otherwise some nonzero value is followed
by 0. -/
theorem Config.top_tap_of_walk_nonzero (h : ∀ v : BitVec cfg.W, v ≠ 0#cfg.W ↔ ∃ p, cfg.stateAt p = v) :
    cfg.W ∈ cfg.taps := by
  by_contra hno
  obtain ⟨p, hp⟩ := (h _).mp (shiftLeft_fwd_or_one_ne_zero (fwd := cfg.fwdMask) hcfg.pos)
  have hnext : cfg.stateAt (p + 1) = 0#cfg.W := by
    rw [stateAt_succ, hp]
    exact up_shiftLeft_fwd_or_one (fwdMask_top_eq_false hcfg hno)
  exact (h _).mpr ⟨p + 1, hnext⟩ rfl

theorem Config.CycleComplete.top_tap (hcc : cfg.CycleComplete) : cfg.W ∈ cfg.taps := by
  refine top_tap_of_walk_nonzero hcfg fun v => ⟨fun hv => ?_, fun ⟨p, hp⟩ => hp ▸ hcc.stateAt_ne_zero hcfg.pos p⟩
  obtain ⟨p, _, hp⟩ := hcc.exists_stateAt hcfg.pos hv
  exact ⟨p, hp⟩

/-- Such a configuration is cycle-complete: with a tap at `W` the walk returns to 1, and by then it has seen as many states
as it takes steps. -/
theorem Config.cycleComplete_of_walk_nonzero (h : ∀ v : BitVec cfg.W, v ≠ 0#cfg.W ↔ ∃ p, cfg.stateAt p = v) :
    cfg.CycleComplete := by
  have hinj := ((Config.up_bijective_iff hcfg).mpr (top_tap_of_walk_nonzero hcfg h)).injective
  have hmin := Function.minimalPeriod_pos_of_mem_periodicPts (hinj.mem_periodicPts 1#cfg.W)
  have himage : (Finset.range (Function.minimalPeriod cfg.up 1#cfg.W)).image cfg.stateAt =
      Finset.univ.erase 0#cfg.W := by
    ext v
    simp only [Finset.mem_image, Finset.mem_range, Finset.mem_erase, Finset.mem_univ, and_true, h]
    refine ⟨fun ⟨p, _, hp⟩ => ⟨p, hp⟩, fun ⟨p, hp⟩ => ⟨p % _, Nat.mod_lt p hmin, ?_⟩⟩
    exact Function.iterate_mod_minimalPeriod_eq.trans hp
  rw [cycleComplete_iff_minimalPeriod hcfg.pos, ← card_image_stateAt le_rfl, himage, card_nonzero, Config.seqLen]

/-- The last position of the cycle is where a backward step from 1 leads. -/
theorem Config.CycleComplete.stateAt_last (hcc : cfg.CycleComplete) :
    cfg.stateAt (cfg.seqLen - 1) = cfg.down 1#cfg.W := by
  have hreturn : cfg.up (cfg.stateAt (cfg.seqLen - 1)) = 1#cfg.W := by
    rw [← stateAt_succ, Nat.sub_add_cancel (seqLen_pos hcfg.pos)]
    exact hcc.2
  rw [← hreturn, Config.down_up hcfg (hcc.top_tap hcfg)]

end WellFormed

end Walk

end Sys2Proof

namespace Sys2Proof.Machine

/-! ## The engine commands (R75 to R80) -/

section Commands

variable {s : State} {i : Instr}

theorem exec_of_command {a : Arch s.cfg.W} {r : Response} (h : command s.cfg i s.arch = some (a, r)) :
    exec i s = .next { s with arch := a, rsp := some r } := by
  rw [exec_eq_deliver, h, State.deliver_some]

theorem exec_of_faulted (h : s.arch.fault = true) :
    exec i s = .next { s with rsp := some ⟨.fault, s.arch.fcause.setWidth 32⟩ } :=
  exec_of_command (command_of_faulted h)

variable (hf : s.arch.fault = false)
include hf

theorem exec_init : exec .init s = .next { s with arch.state := 1#s.cfg.W, rsp := some ⟨.ok, 0#32⟩ } :=
  exec_of_command (Arch.dispatch_valid hf rfl)

theorem exec_load_of_lt {imm : Imm} (hlt : imm.toNat < 2 ^ s.cfg.W) :
    exec (.load imm) s = .next { s with arch.state := imm.setWidth s.cfg.W, rsp := some ⟨.ok, 0#32⟩ } :=
  exec_of_command (loadCommand_of_lt hf hlt)

theorem exec_load_of_ge {imm : Imm} (hge : 2 ^ s.cfg.W ≤ imm.toNat) :
    exec (.load imm) s = .next { s with arch.fault := true, arch.fcause := 2#2, rsp := some ⟨.fault, 2#32⟩ } :=
  exec_of_command (loadCommand_of_ge hf hge)

theorem exec_get : exec .get s = .next { s with rsp := some ⟨.ok, s.arch.state.setWidth 32⟩ } :=
  exec_of_command (Arch.dispatch_valid hf rfl)

theorem exec_inc :
    exec .inc s = .next { s with arch.state := s.cfg.up s.arch.state, rsp := some ⟨.ok, 0#32⟩ } :=
  exec_of_command (Arch.dispatch_valid hf rfl)

theorem exec_dec :
    exec .dec s = .next { s with arch.state := s.cfg.down s.arch.state, rsp := some ⟨.ok, 0#32⟩ } :=
  exec_of_command (Arch.dispatch_valid hf rfl)

theorem exec_seqlen :
    exec .seqlen s = .next { s with rsp := some ⟨.ok, BitVec.ofNat 32 (2 ^ s.cfg.W - 1)⟩ } :=
  exec_of_command (Arch.dispatch_valid hf rfl)

/-- `INC` where the forward step is known. -/
theorem exec_inc_of_up {v : BitVec s.cfg.W} (hv : s.cfg.up s.arch.state = v) :
    exec .inc s = .next { s with arch.state := v, rsp := some ⟨.ok, 0#32⟩ } := hv ▸ exec_inc hf

/-- `DEC` where the backward step is known. -/
theorem exec_dec_of_down {v : BitVec s.cfg.W} (hv : s.cfg.down s.arch.state = v) :
    exec .dec s = .next { s with arch.state := v, rsp := some ⟨.ok, 0#32⟩ } := hv ▸ exec_dec hf

end Commands

/-- A word with the opcode of a command that has no operand is that command, whatever its immediate. -/
theorem decode_assemble_opcode {i : Instr} (h : opcode i ∈ [1#4, 3#4, 4#4, 5#4, 6#4, 8#4, 10#4]) (imm : Imm) :
    decode (assemble (opcode i) imm) = .ok i :=
  (decode_assemble_of_no_operand h imm (immOf i)).trans (decode_encode i)

/-! ## What a command and a step do to the register (R71) -/

section Register

variable {cfg : Config} {a : Arch cfg.W} {o : Arch cfg.W × Response}

/-- Neither a refusal nor a fault entry writes the register; what does is the command the dispatcher lets through. -/
theorem Arch.dispatch_state {W : Nat} {a : Arch W} {o : Arch W × Response} {valid : Bool} {body : Answer W}
    (h : a.dispatch valid body = some o) : o.1.state = a.state ∨ body = some o := by
  obtain ⟨_, h⟩ | ⟨_, _, h⟩ | ⟨_, _, h⟩ := Arch.dispatch_some h
  · cases h; exact .inl rfl
  · cases h; exact .inl rfl
  · exact .inr h

theorem Arch.withOperand_state {W : Nat} {a : Arch W} {o : Arch W × Response} {imm : Imm} {k : BitVec W → Answer W}
    (h : a.withOperand imm k = some o) :
    o.1.state = a.state ∨ (imm.toNat < 2 ^ W ∧ k (imm.setWidth W) = some o) := by
  obtain h | ⟨_, h⟩ := Arch.withOperand_some h
  · exact .inr h
  · cases h; exact .inl rfl

theorem respondDirect_state {q : BitVec cfg.W} (h : respondDirect cfg a q = some o) : o.1.state = a.state := by
  obtain ⟨_, _, rfl⟩ := respondDirect_some h
  rfl

/-- What a command leaves in the register: `INIT`, `LOAD`, `INC` and `DEC` write it, every other command keeps it. -/
theorem command_state {i : Instr} (h : command cfg i a = some o) :
    o.1.state = a.state ∨ i = .init ∨ (∃ imm, i = .load imm ∧ o.1.state = imm.setWidth cfg.W) ∨
      o.1.state = cfg.up a.state ∨ o.1.state = cfg.down a.state := by
  cases i <;> refine (Arch.dispatch_state h).elim .inl fun hb => ?_
  case init => exact .inr (.inl rfl)
  case load imm =>
    refine (Arch.withOperand_state hb).imp_right fun ⟨_, hb⟩ => .inr (.inl ⟨imm, rfl, ?_⟩)
    cases hb; rfl
  case inc => cases hb; exact .inr (.inr (.inr (.inl rfl)))
  case dec => cases hb; exact .inr (.inr (.inr (.inr rfl)))
  case get => cases hb; exact .inl rfl
  case seqlen => cases hb; exact .inl rfl
  case lkd => exact .inl (respondDirect_state hb)
  case lkdi => exact .inl ((Arch.withOperand_state hb).elim id fun ⟨_, hb⟩ => respondDirect_state hb)
  case lks => cases hb; exact .inl rfl
  case lksi =>
    obtain hkeep | ⟨_, hb⟩ := Arch.withOperand_state hb
    · exact .inl hkeep
    · cases hb; exact .inl rfl

/-- A command word takes the register from 0 elsewhere only as `INIT` or a `LOAD` of a nonzero operand. -/
theorem transition_from_zero {w : CommandWord} (h : transition cfg a w = some o) (ha : a.state = 0#cfg.W) :
    o.1.state = 0#cfg.W ∨ decode w = .ok .init ∨ ∃ imm, imm ≠ 0#32 ∧ decode w = .ok (.load imm) := by
  cases hd : decode w with
  | error e =>
    rw [transition_of_decode_error hd] at h
    obtain hkeep | hnone := Arch.dispatch_state h
    · exact .inl (hkeep.trans ha)
    · cases hnone
  | ok i =>
    rw [transition_of_decode_ok hd] at h
    obtain hkeep | rfl | ⟨imm, rfl, hload⟩ | hup | hdown := command_state h
    · exact .inl (hkeep.trans ha)
    · exact .inr (.inl rfl)
    · by_cases himm : imm = 0#32
      · exact .inl (by simp [hload, himm])
      · exact .inr (.inr ⟨imm, himm, rfl⟩)
    · exact .inl (by rw [hup, ha]; exact up_zero)
    · exact .inl (by rw [hdown, ha]; exact down_zero)

end Register

/-! ## The obligations on the steps -/

/-- Settles O37 (R67). -/
theorem upFormulaAndCorners : Obligations.UpFormulaAndCorners := by
  unfold Obligations.UpFormulaAndCorners
  intro cfg hcfg
  refine ⟨fun s => ⟨rfl, ?_⟩, up_zero, up_one hcfg.pos, up_two hcfg.wf1.1, up_allOnes hcfg.pos⟩
  rw [BitVec.getLsbD_ushiftRight]
  exact BitVec.getLsbD_of_ge _ _ (by omega)

/-- Settles O38 (R68). -/
theorem downFormulaAndCorners : Obligations.DownFormulaAndCorners := by
  unfold Obligations.DownFormulaAndCorners
  intro cfg hcfg
  exact ⟨fun s => ⟨rfl, by simp⟩, down_zero, down_one hcfg.wf1.1, down_twoPow_top hcfg.pos, down_allOnes hcfg.pos⟩

/-- Settles O39 (R69): the product and the AND are each the selection by the bit. -/
theorem branchFreeForms : Obligations.BranchFreeForms := by
  unfold Obligations.BranchFreeForms
  intro W m s
  rw [mul_bit_eq_mask_or_zero, mul_bit_eq_mask_or_zero, and_neg_bit_eq_mask_or_zero, and_neg_bit_eq_mask_or_zero]
  exact ⟨rfl, rfl, rfl, rfl⟩

/-- Settles O40 (R70): one side bit by bit, the other because the values are finitely many. -/
theorem inverseLaw : Obligations.InverseLaw := by
  unfold Obligations.InverseLaw
  exact fun cfg hcfg htap s => ⟨Config.down_up hcfg htap s, Config.up_down hcfg htap s⟩

/-- Settles O41 (R71): what each command leaves in the register, the inverse law, and the state that steps to 0. -/
theorem lockUpState : Obligations.LockUpState := by
  unfold Obligations.LockUpState
  refine ⟨fun cfg => ⟨up_zero, down_zero⟩, fun s t hs h => ?_, fun cfg hcfg htap s hs => ⟨?_, ?_⟩,
    fun cfg hcfg hno => ⟨up_shiftLeft_fwd_or_one (fwdMask_top_eq_false hcfg hno), shiftLeft_fwd_or_one_ne_zero hcfg.pos⟩⟩
  · obtain ⟨_, rfl⟩ | ⟨rest, hin, rfl⟩ | ⟨w, rest, a, r, hin, ho, _, rfl⟩ := step_effect h
    · exact .inl hs
    · exact .inr (.inl ⟨rest, hin⟩)
    · exact (transition_from_zero ho hs).imp_right fun hw => .inr ⟨w, rest, hin, hw⟩
  · exact fun hzero => hs (((Config.up_bijective_iff hcfg).mpr htap).injective (hzero.trans up_zero.symm))
  · exact fun hzero => hs (((Config.down_bijective_iff hcfg).mpr htap).injective (hzero.trans down_zero.symm))

/-- Settles O42 (R72): with the tap the steps are inverses, without it each leaves one bit of its results at 0. -/
theorem stepsAreBijectiveExactlyWithATopTap : Obligations.StepsAreBijectiveExactlyWithATopTap := by
  unfold Obligations.StepsAreBijectiveExactlyWithATopTap
  exact ⟨fun cfg hcfg => ⟨Config.up_bijective_iff hcfg, Config.down_bijective_iff hcfg⟩, by decide, by decide⟩

/-- Settles O44 (R74): the container is the backward step and the bit that spills over. -/
theorem containerSteps : Obligations.ContainerSteps := by
  unfold Obligations.ContainerSteps
  intro cfg hcfg s
  have hW := hcfg.wf1.2
  have hdown : down32 cfg.fwdMask (s.setWidth 32) = _ := down32_eq_setWidth_down_or hW hcfg.pos
  have hbit : BitVec.ofNat 32 (2 ^ cfg.W) = BitVec.twoPow 32 cfg.W :=
    BitVec.eq_of_toNat_eq (by rw [BitVec.toNat_ofNat, BitVec.toNat_twoPow])
  refine ⟨up32_eq_setWidth_up hW, fun h => ?_, fun hno hs => ?_⟩
  · have hspill : (s.getLsbD (cfg.W - 1) && !cfg.fwdMask.getLsbD (cfg.W - 1)) = false := by
      obtain htap | hs := h
      · rw [(fwdMask_top_iff hcfg).mpr htap, Bool.not_true, Bool.and_false]
      · rw [hs, Bool.false_and]
    rw [hdown, hspill, if_neg Bool.false_ne_true, BitVec.or_zero]
    rfl
  · rw [hdown, hs, fwdMask_top_eq_false hcfg hno, hbit]
    rfl

/-! ## The obligations on the walk -/

/-- Settles O43 (R73): counting the states of the walk, in both directions. -/
theorem maximalLengthProperty : Obligations.MaximalLengthProperty := by
  unfold Obligations.MaximalLengthProperty
  intro cfg hcfg
  refine ⟨fun hcc => ⟨fun _ _ => hcc.stateAt_injective, ?_, hcc.2, rfl⟩,
    mt (Config.cycleComplete_of_walk_nonzero hcfg), fun s _ hf => exec_seqlen hf⟩
  exact hcc.ne_zero_iff_exists_stateAt hcfg.pos

/-- Settles O45 (R81). -/
theorem stateAtFacts : Obligations.StateAtFacts := by
  unfold Obligations.StateAtFacts
  intro cfg hcfg
  refine ⟨rfl, Config.stateAt_one hcfg.pos, fun htap p => ⟨Config.stateAt_succ p, ?_⟩, fun hcc => ?_⟩
  · rw [Config.stateAt_succ, Config.down_up hcfg htap]
  · refine ⟨hcc.stateAt_add_seqLen, hcc.stateAt_last hcfg, down_one hcfg.wf1.1, fun v hv => ?_,
      hcc.stateAt_ne_zero hcfg.pos⟩
    obtain ⟨p, hlt, hp⟩ := hcc.exists_stateAt hcfg.pos hv
    exact ⟨p, ⟨hlt, hp⟩, fun q ⟨hq, hqv⟩ => hcc.stateAt_injective hq hlt (hqv.trans hp.symm)⟩

/-- Settles O46 (R82): the state at the last position is 2, the backward step from 1, and steps forward to 1. -/
theorem steppingWrapsAround : Obligations.SteppingWrapsAround := by
  unfold Obligations.SteppingWrapsAround
  intro s hcfg hcc hf
  have hup : s.cfg.up 2#s.cfg.W = 1#s.cfg.W := up_two hcfg.wf1.1
  have hdown : s.cfg.down 1#s.cfg.W = 2#s.cfg.W := down_one hcfg.wf1.1
  have hlast := hcc.stateAt_last hcfg
  refine ⟨fun hs => exec_inc_of_up hf ?_, fun hs => exec_dec_of_down hf ?_, hup, hdown⟩
  · rw [hs, hlast, hdown, hup, Config.stateAt_zero]
  · rw [hs, hlast, Config.stateAt_zero]

/-! ## The obligations on the engine commands -/

/-- Settles O2 (R75, R129). -/
theorem initWritesOneAsLoadOneAndResetDo : Obligations.InitWritesOneAsLoadOneAndResetDo := by
  unfold Obligations.InitWritesOneAsLoadOneAndResetDo
  refine ⟨fun s hf => exec_init hf, fun s hf hW => ?_, fun s hf => ⟨exec_of_faulted hf, exec_of_faulted hf⟩,
    fun s rest hin => ⟨_, step_reset hin, rfl, rfl, rfl, rfl⟩, decode_assemble_opcode (i := .init) (by decide)⟩
  have hone : (1#32).toNat < 2 ^ s.cfg.W := Nat.one_lt_two_pow (by omega)
  have hval : (1#32).setWidth s.cfg.W = 1#s.cfg.W := BitVec.eq_of_toNat_eq (by simp)
  rw [exec_load_of_lt hf hone, hval, exec_init hf]

/-- Settles O3 (R76). -/
theorem loadWritesAnOperandThatFits : Obligations.LoadWritesAnOperandThatFits := by
  unfold Obligations.LoadWritesAnOperandThatFits
  refine ⟨fun imm s hf hlt => ⟨exec_load_of_lt hf hlt, ?_⟩, fun imm s hf => exec_load_of_ge hf,
    fun imm => decode_encode (.load imm)⟩
  rw [BitVec.toNat_setWidth, Nat.mod_eq_of_lt hlt]

/-- Settles O4 (R77). -/
theorem getAnswersTheRegister : Obligations.GetAnswersTheRegister := by
  unfold Obligations.GetAnswersTheRegister
  refine ⟨fun s hf => exec_get hf, fun s k hk => ?_, decode_assemble_opcode (i := .get) (by decide)⟩
  rw [BitVec.getLsbD_setWidth, BitVec.getLsbD_of_ge _ _ hk, Bool.and_false]

/-- Settles O5 (R78): the corner cases are those of `up`. -/
theorem incStepsForward : Obligations.IncStepsForward := by
  unfold Obligations.IncStepsForward
  refine ⟨fun s hf => exec_inc hf, fun s hf hW => ⟨fun hs => ?_, fun hs => ?_, fun hs => ?_⟩,
    decode_assemble_opcode (i := .inc) (by decide)⟩
  · exact exec_inc_of_up hf (by rw [hs]; exact up_zero)
  · exact exec_inc_of_up hf (by rw [hs]; exact up_one (by omega))
  · exact exec_inc_of_up hf (by rw [hs]; exact up_two hW)

/-- Settles O6 (R79): the corner cases are those of `down`, and the restore laws are the inverse laws. -/
theorem decStepsBackwardAndUndoesInc : Obligations.DecStepsBackwardAndUndoesInc := by
  unfold Obligations.DecStepsBackwardAndUndoesInc
  refine ⟨fun s hf => exec_dec hf, fun s hf hW => ⟨fun hs => ?_, fun hs => ?_, fun hs => ?_⟩,
    fun s hcfg htap hf => ⟨?_, ?_⟩, decode_assemble_opcode (i := .dec) (by decide)⟩
  · exact exec_dec_of_down hf (by rw [hs]; exact down_zero)
  · exact exec_dec_of_down hf (by rw [hs]; exact down_one hW)
  · exact exec_dec_of_down hf (by rw [hs]; exact down_twoPow_top (by omega))
  · exact ⟨_, exec_inc hf, exec_dec_of_down (by exact hf) (Config.down_up hcfg htap _)⟩
  · exact ⟨_, exec_dec hf, exec_inc_of_up (by exact hf) (Config.up_down hcfg htap _)⟩

/-- Settles O7 (R80). -/
theorem seqlenAnswersTheSequenceLength : Obligations.SeqlenAnswersTheSequenceLength := by
  unfold Obligations.SeqlenAnswersTheSequenceLength
  refine ⟨fun s hf => exec_seqlen hf, fun W hW => ?_, decode_assemble_opcode (i := .seqlen) (by decide)⟩
  have hle : 2 ^ W ≤ 2 ^ 32 := Nat.pow_le_pow_right Nat.two_pos hW
  have hpos := Nat.two_pow_pos W
  exact Nat.mod_eq_of_lt (by omega)

end Sys2Proof.Machine

namespace Sys2Proof

open Machine

/-! # 42_table_builder: the sparse table, the exhaustive walk, and the reverse table -/

/-! ## The number of samples (R85) -/

section Samples

variable {cfg : Config}

/-- `nsamp` is a rounded-up quotient, so sample `i` is recorded exactly when its position lies below `SMAX`. -/
theorem Config.lt_nsamp_iff (hstep : 1 ≤ cfg.sstep) (i : Nat) :
    i < cfg.nsamp ↔ cfg.smin + i * cfg.sstep < cfg.smax := by
  have hceil : cfg.nsamp ≤ i ↔ cfg.smax - cfg.smin ≤ cfg.sstep * i := ceilDiv_le_iff_le_mul hstep
  rw [Nat.mul_comm] at hceil
  omega

/-- The fuel of `Config.spt` is enough. -/
theorem Config.nsamp_le_smax (hstep : 1 ≤ cfg.sstep) : cfg.nsamp ≤ cfg.smax := by
  by_contra hlt
  have hpos := (lt_nsamp_iff hstep cfg.smax).mp (by omega)
  have hle : cfg.smax ≤ cfg.smax * cfg.sstep := Nat.le_mul_of_pos_right _ hstep
  omega

/-! ## The closed form of the sparse table (R86) -/

/-- `(SMIN + i*SSTEP, StateAt(SMIN + i*SSTEP))`, the entry that 42_table_builder R86 gives for index `i`. -/
def Config.sampleAt (cfg : Config) (i : Nat) : Sample cfg.W :=
  ⟨BitVec.ofNat 32 (cfg.smin + i * cfg.sstep), cfg.stateAt (cfg.smin + i * cfg.sstep)⟩

/-- From position `p` the sampling walk steps on to any later position. -/
theorem Config.up_iterate_stateAt {p q : Nat} (h : p ≤ q) :
    (Machine.up cfg.fwdMask)^[q - p] (cfg.stateAt p) = cfg.stateAt q := by
  have hadd := Function.iterate_add_apply (Machine.up cfg.fwdMask) (q - p) p 1#cfg.W
  rw [Nat.sub_add_cancel h] at hadd
  exact hadd.symm

/-- The sampling walk that stands at or before sample `i`, with fuel for the samples that remain, takes all of them. -/
theorem Config.sampleFrom_eq_map (hstep : 1 ≤ cfg.sstep) {fuel i p : Nat} (hfuel : cfg.nsamp - i ≤ fuel)
    (hp : p ≤ cfg.smin + i * cfg.sstep) :
    sampleFrom cfg.fwdMask cfg.smin cfg.smax cfg.sstep fuel i p (cfg.stateAt p) =
      (List.range' i (cfg.nsamp - i)).map cfg.sampleAt := by
  induction fuel generalizing i p with
  | zero =>
    rw [Nat.le_zero.mp hfuel]
    rfl
  | succ fuel ih =>
    rw [sampleFrom, up_iterate_stateAt hp]
    by_cases hi : i < cfg.nsamp
    · have hnext : cfg.smin + i * cfg.sstep ≤ cfg.smin + (i + 1) * cfg.sstep := by
        rw [Nat.succ_mul]
        omega
      have hsplit : cfg.nsamp - i = cfg.nsamp - (i + 1) + 1 := by omega
      rw [if_pos ((lt_nsamp_iff hstep i).mp hi), hsplit, List.range'_succ]
      exact congrArg (cfg.sampleAt i :: ·) (ih (by omega) hnext)
    · rw [if_neg (mt (lt_nsamp_iff hstep i).mpr hi), Nat.sub_eq_zero_of_le (by omega)]
      rfl

theorem Config.spt_eq_map (hstep : 1 ≤ cfg.sstep) : cfg.spt = (List.range cfg.nsamp).map cfg.sampleAt := by
  rw [List.range_eq_range']
  exact sampleFrom_eq_map hstep (nsamp_le_smax hstep) (Nat.zero_le _)

theorem Config.readSpt_eq_some_iff (hs : cfg.hasSearch = true) (hstep : 1 ≤ cfg.sstep) {i : Nat} {e : Sample cfg.W} :
    cfg.readSpt i = some e ↔ i < cfg.nsamp ∧ cfg.sampleAt i = e := by
  simp [Config.readSpt, Config.sptSpace, hs, spt_eq_map hstep, List.getElem?_eq_some_iff]

theorem Config.readSpt_eq_none_iff (hs : cfg.hasSearch = true) (hstep : 1 ≤ cfg.sstep) {i : Nat} :
    cfg.readSpt i = none ↔ cfg.nsamp ≤ i := by
  simp [Config.readSpt, Config.sptSpace, hs, spt_eq_map hstep]

section WellFormed

variable (hcfg : cfg.WellFormed) (hs : cfg.hasSearch = true) {i : Nat} (hi : i < cfg.nsamp)
include hcfg hs hi

/-- Every sample is taken inside the cycle (00_scope R6, WF3). -/
theorem Config.samplePosition_lt_seqLen : cfg.smin + i * cfg.sstep < cfg.seqLen := by
  obtain ⟨hstep, _, hmax, _⟩ := hcfg.wf3 hs
  exact ((lt_nsamp_iff hstep i).mp hi).trans_le hmax

/-- So its position is stored whole. -/
theorem Config.sampleAt_pos_toNat : (cfg.sampleAt i).pos.toNat = cfg.smin + i * cfg.sstep := by
  have hlt := samplePosition_lt_seqLen hcfg hs hi
  have hle : 2 ^ cfg.W ≤ 2 ^ 32 := Nat.pow_le_pow_right Nat.two_pos hcfg.wf1.2
  rw [Config.seqLen] at hlt
  exact Nat.mod_eq_of_lt (by omega)

end WellFormed

end Samples

/-! ## The exhaustive walk (R88, R89) -/

section Walk

/-- No state repeats among the first `n` of the walk. -/
def Config.DistinctBelow (cfg : Config) (n : Nat) : Prop :=
  ∀ i j, i < j → j < n → cfg.stateAt i ≠ cfg.stateAt j

/-- The positions below `n`, each with its state. -/
def Config.positionList (cfg : Config) (n : Nat) : List (Nat × BitVec cfg.W) :=
  (List.range n).map fun p => (p, cfg.stateAt p)

variable {cfg : Config}

theorem Config.cycleComplete_iff_distinctBelow :
    cfg.CycleComplete ↔ cfg.DistinctBelow cfg.seqLen ∧ cfg.stateAt cfg.seqLen = 1#cfg.W := Iff.rfl

theorem Config.distinctBelow_zero : cfg.DistinctBelow 0 := fun _ _ _ hj => absurd hj (Nat.not_lt_zero _)

theorem Config.DistinctBelow.succ {n : Nat} (h : cfg.DistinctBelow n)
    (hnew : ¬∃ j, j < n ∧ cfg.stateAt j = cfg.stateAt n) : cfg.DistinctBelow (n + 1) := by
  intro i j hij hj
  obtain hlt | rfl := Nat.lt_succ_iff_lt_or_eq.mp hj
  · exact h i j hij hlt
  · exact fun heq => hnew ⟨i, hij, heq⟩

theorem Config.reverse_positionList_succ (n : Nat) :
    (cfg.positionList (n + 1)).reverse = (n, cfg.stateAt n) :: (cfg.positionList n).reverse := by
  simp [Config.positionList, List.range_succ]

/-- The test of 42_table_builder R88 for a repeated state. -/
theorem Config.any_positionList_iff {n : Nat} {x : BitVec cfg.W} :
    (cfg.positionList n).reverse.any (fun e => e.2 == x) = true ↔ ∃ j, j < n ∧ cfg.stateAt j = x := by
  simp [Config.positionList]

/-- The three answers of an exhaustive walk over `n` positions. -/
inductive Config.WalkOutcome (cfg : Config) (n : Nat) : Except WalkFailure (List (Nat × BitVec cfg.W)) → Prop where
  | returned (hne : cfg.DistinctBelow n) (hone : cfg.stateAt n = 1#cfg.W) : WalkOutcome cfg n (.ok (cfg.positionList n))
  | noReturn (hne : cfg.DistinctBelow n) (hone : cfg.stateAt n ≠ 1#cfg.W) :
    WalkOutcome cfg n (.error (.noReturn (cfg.stateAt n).toNat))
  | repeated (p : Nat) (hp : p < n) (hne : cfg.DistinctBelow p) (hrep : ∃ j, j < p ∧ cfg.stateAt j = cfg.stateAt p) :
    WalkOutcome cfg n (.error (.repeated p (cfg.stateAt p).toNat))

/-- The walk that has recorded the positions below `p`, all of them distinct, with `n` more to go. -/
theorem Config.walkFrom_outcome {n p : Nat} (hne : cfg.DistinctBelow p) :
    cfg.WalkOutcome (p + n) (walkFrom cfg.fwdMask n p (cfg.stateAt p) (cfg.positionList p).reverse) := by
  induction n generalizing p with
  | zero =>
    rw [walkFrom, List.reverse_reverse]
    split
    · exact .returned hne ‹_›
    · exact .noReturn hne ‹_›
  | succ n ih =>
    rw [walkFrom]
    split
    next hany => exact .repeated p (by omega) hne (any_positionList_iff.mp hany)
    next hany =>
      have hnext := ih (hne.succ (mt any_positionList_iff.mpr hany))
      rwa [Nat.succ_add_eq_add_succ, stateAt_succ, reverse_positionList_succ] at hnext

theorem Config.exhaustiveWalk_outcome (cfg : Config) : cfg.WalkOutcome cfg.seqLen cfg.exhaustiveWalk := by
  have h := walkFrom_outcome (n := cfg.seqLen) (distinctBelow_zero (cfg := cfg))
  rwa [Nat.zero_add] at h

theorem Config.exhaustiveWalk_eq_ok_iff {l : List (Nat × BitVec cfg.W)} :
    cfg.exhaustiveWalk = .ok l ↔ cfg.CycleComplete ∧ l = cfg.positionList cfg.seqLen := by
  have hout := cfg.exhaustiveWalk_outcome
  rw [cycleComplete_iff_distinctBelow]
  generalize cfg.exhaustiveWalk = r at hout
  cases hout with
  | returned hne hone => simp [hne, hone, eq_comm]
  | noReturn hne hone => simp [hone]
  | repeated p hp hne hrep =>
    obtain ⟨j, hj, heq⟩ := hrep
    have hnot : ¬cfg.DistinctBelow cfg.seqLen := fun h => h j p hj hp heq
    simp [hnot]

/-! ## The reverse table (R91 to R94) -/

theorem Config.recordsFrom_eq_map {n p : Nat} :
    recordsFrom cfg.fwdMask n p (cfg.stateAt p) = (List.range' p n).map fun k => (k, cfg.stateAt k) := by
  induction n generalizing p with
  | zero => rfl
  | succ n ih =>
    rw [recordsFrom, List.range'_succ, List.map_cons, ← ih, stateAt_succ]
    rfl

theorem Config.walkRecords_eq_positionList : cfg.walkRecords = cfg.positionList cfg.seqLen := by
  rw [Config.positionList, List.range_eq_range']
  exact recordsFrom_eq_map

theorem Config.find?_positionList {n p : Nat} (hne : cfg.DistinctBelow n) (hp : p < n) :
    (cfg.positionList n).find? (fun e => e.2 == cfg.stateAt p) = some (p, cfg.stateAt p) := by
  have hfirst : (List.range n).find? (fun k => cfg.stateAt k == cfg.stateAt p) = some p := by
    rw [List.find?_range_eq_some]
    simpa [hp] using fun j hj => hne j p hj hp
  rw [Config.positionList, List.find?_map]
  exact congrArg (Option.map _) hfirst

/-- Positions are stored whole in `W` bits. -/
theorem Config.eq_of_ofNat_eq {p q : Nat} (hp : p < cfg.seqLen) (hq : q < cfg.seqLen)
    (h : BitVec.ofNat cfg.W p = BitVec.ofNat cfg.W q) : p = q := by
  have hval := congrArg BitVec.toNat h
  rw [Config.seqLen] at hp hq
  rwa [BitVec.toNat_ofNat, BitVec.toNat_ofNat, Nat.mod_eq_of_lt (by omega), Nat.mod_eq_of_lt (by omega)] at hval

section Reverse

variable (hd : cfg.hasDirect = true)
include hd

theorem Config.readRev_eq_rev (a : BitVec cfg.W) : cfg.readRev a = cfg.rev a := if_pos hd

theorem Config.readRev_zero : cfg.readRev 0#cfg.W = some (BitVec.allOnes cfg.W) := by
  rw [readRev_eq_rev hd]
  exact if_pos rfl

variable (hcfg : cfg.WellFormed)
include hcfg

theorem Config.readRev_stateAt {p : Nat} (hp : p < cfg.seqLen) :
    cfg.readRev (cfg.stateAt p) = some (BitVec.ofNat cfg.W p) := by
  have hcc := hcfg.wf4 hd
  rw [readRev_eq_rev hd, Config.rev, if_neg (hcc.stateAt_ne_zero hcfg.pos p), walkRecords_eq_positionList,
    find?_positionList hcc.1 hp]
  rfl

/-- A slot of `REV` that is not slot 0 holds a position exactly when the walk is at the slot's state there. -/
theorem Config.readRev_eq_position_iff {a : BitVec cfg.W} (ha : a ≠ 0#cfg.W) {p : Nat} (hp : p < cfg.seqLen) :
    cfg.readRev a = some (BitVec.ofNat cfg.W p) ↔ cfg.stateAt p = a := by
  constructor
  · intro h
    obtain ⟨q, hq, rfl⟩ := (hcfg.wf4 hd).exists_stateAt hcfg.pos ha
    rw [readRev_stateAt hd hcfg hq] at h
    rw [eq_of_ofNat_eq hq hp (Option.some.inj h)]
  · rintro rfl
    exact readRev_stateAt hd hcfg hp

end Reverse

end Walk

/-! ## The obligations on the Table Builder -/

/-- Settles O47 (R85): each clause from which indexes are recorded. -/
theorem numberOfSamples : Obligations.NumberOfSamples := by
  unfold Obligations.NumberOfSamples
  intro cfg hcfg hs
  obtain ⟨hstep, _, _, _⟩ := hcfg.wf3 hs
  have hlt := Config.lt_nsamp_iff hstep
  refine ⟨?_, hlt, fun heq => ?_, fun hpos hshort => ?_, fun hpos => ?_⟩
  · rw [Config.spt_eq_map hstep, List.length_map, List.length_range]
  · have hfirst := hlt 0
    omega
  · have hfirst := hlt 0
    have hsecond := hlt 1
    omega
  · have hlast := (hlt (cfg.nsamp - 1)).mp (by omega)
    omega

/-- Settles O48 (R86): the table is the list of `Config.sampleAt`, whose positions lie inside the cycle. -/
theorem sparseTableClosedForm : Obligations.SparseTableClosedForm := by
  unfold Obligations.SparseTableClosedForm
  intro cfg hcfg hs
  obtain ⟨hstep, _, _, _⟩ := hcfg.wf3 hs
  simp only [Config.readSpt_eq_some_iff hs hstep, Config.readSpt_eq_none_iff hs hstep]
  refine ⟨fun i hi => ⟨_, ⟨hi, rfl⟩, Config.sampleAt_pos_toNat hcfg hs hi, rfl⟩, fun _ hi => hi, ?_, ?_⟩
  · rintro i j _ _ ⟨hi, rfl⟩ ⟨hj, rfl⟩ hij
    rw [Config.sampleAt_pos_toNat hcfg hs hi, Config.sampleAt_pos_toNat hcfg hs hj]
    exact Nat.add_lt_add_left (Nat.mul_lt_mul_of_pos_right hij hstep) _
  · rintro hcc i j _ _ ⟨hi, rfl⟩ ⟨hj, rfl⟩
    refine ⟨hcc.stateAt_ne_zero hcfg.pos _, fun heq => ?_⟩
    have hpos := hcc.stateAt_injective (Config.samplePosition_lt_seqLen hcfg hs hi)
      (Config.samplePosition_lt_seqLen hcfg hs hj) heq
    exact Nat.eq_of_mul_eq_mul_right hstep (Nat.add_left_cancel hpos)

/-- Settles O49 (R88, R89): the three answers of the walk, read off one by one. -/
theorem exhaustiveWalkDecidesCycleCompleteness : Obligations.ExhaustiveWalkDecidesCycleCompleteness := by
  unfold Obligations.ExhaustiveWalkDecidesCycleCompleteness
  intro cfg
  have hout := cfg.exhaustiveWalk_outcome
  refine ⟨⟨fun hcc => ⟨_, Config.exhaustiveWalk_eq_ok_iff.mpr ⟨hcc, rfl⟩⟩, fun ⟨_, hl⟩ => ?_⟩, fun _ hl => ?_,
    fun p x hfail => ?_, fun x hfail => ?_⟩
  · exact (Config.exhaustiveWalk_eq_ok_iff.mp hl).1
  · exact (Config.exhaustiveWalk_eq_ok_iff.mp hl).2
  · rw [hfail] at hout
    cases hout with
    | repeated _ hp hne hrep => exact ⟨hp, rfl, hrep, hne⟩
  · rw [hfail] at hout
    cases hout with
    | noReturn hne hone => exact ⟨rfl, hone, hne⟩

/-- Settles O50 (R92, R94): every slot but slot 0 is the slot of one position, and the selected words are the slots of
positions 0, 1 and `SEQ_LEN - 1`. -/
theorem reverseTableInvertsTheWalk : Obligations.ReverseTableInvertsTheWalk := by
  unfold Obligations.ReverseTableInvertsTheWalk
  intro cfg hcfg hd
  have hcc := hcfg.wf4 hd
  have htap := hcc.top_tap hcfg
  have hlen : 1 < cfg.seqLen := by
    have := two_lt_two_pow hcfg.wf1.1
    rw [Config.seqLen]
    omega
  have hslot {p : Nat} (hp : p < cfg.seqLen) := Config.readRev_stateAt hd hcfg hp
  refine ⟨fun p hp => ⟨hcc.stateAt_ne_zero hcfg.pos p, hslot hp⟩, fun a ha => ?_, fun a b ha hb hab => ?_,
    (Config.up_bijective_iff hcfg).mpr htap, htap,
    fun s => ⟨Config.down_up hcfg htap s, Config.up_down hcfg htap s⟩, Config.readRev_zero hd, ?_, ?_, ?_⟩
  · obtain ⟨p, hp, rfl⟩ := hcc.exists_stateAt hcfg.pos ha
    refine ⟨p, ⟨hp, hslot hp⟩, fun q ⟨hq, hqslot⟩ => ?_⟩
    exact hcc.stateAt_injective hq hp ((Config.readRev_eq_position_iff hd hcfg ha hq).mp hqslot)
  · obtain ⟨p, hp, rfl⟩ := hcc.exists_stateAt hcfg.pos ha
    exact (Config.readRev_eq_position_iff hd hcfg hb hp).mp (hab ▸ hslot hp)
  · exact hslot (p := 0) (by omega)
  · rw [← Config.stateAt_one hcfg.pos]
    exact hslot hlen
  · rw [← down_one hcfg.wf1.1]
    exact hcc.stateAt_last hcfg ▸ hslot (p := cfg.seqLen - 1) (by omega)

end Sys2Proof

namespace Sys2Proof

open Machine

/-! # 43_search_index: what a search finds, and the effective window -/

/-! ## The first match (R95) -/

/-- The test of 43_search_index R95 that the candidate `o` backward steps before `q` makes against sample `i`. -/
def Config.Matches (cfg : Config) (q : BitVec cfg.W) (o i : Nat) : Prop :=
  cfg.down^[o] q = cfg.stateAt (cfg.smin + i * cfg.sstep)

/-- The search for `q` ends at offset `o` with sample `i`: offsets ascend, and samples within one offset. -/
structure Config.FirstMatch (cfg : Config) (q : BitVec cfg.W) (o i : Nat) : Prop where
  offset_lt : o < cfg.sstep
  index_lt : i < cfg.nsamp
  hit : cfg.Matches q o i
  before : ∀ o' i', i' < cfg.nsamp → (o' < o ∨ (o' = o ∧ i' < i)) → ¬cfg.Matches q o' i'

/-- No test of the search for `q` succeeds. -/
def Config.NoMatch (cfg : Config) (q : BitVec cfg.W) : Prop :=
  ∀ o i, o < cfg.sstep → i < cfg.nsamp → ¬cfg.Matches q o i

/-- The two answers of the search loop. -/
inductive Config.SearchOutcome (cfg : Config) (q : BitVec cfg.W) : Option Nat → Prop where
  | found {o i : Nat} (h : cfg.FirstMatch q o i) : SearchOutcome cfg q (some (cfg.smin + i * cfg.sstep + o))
  | absent (h : cfg.NoMatch q) : SearchOutcome cfg q none

section FirstMatch

variable {cfg : Config} {q : BitVec cfg.W} {o i o' i' : Nat}

/-- One first match precedes every other, so there is only one. -/
theorem Config.FirstMatch.unique (h : cfg.FirstMatch q o i) (h' : cfg.FirstMatch q o' i') : o = o' ∧ i = i' := by
  have hnotAfter := mt (h.before o' i' h'.index_lt) (not_not_intro h'.hit)
  have hnotBefore := mt (h'.before o i h.index_lt) (not_not_intro h.hit)
  omega

theorem Config.FirstMatch.lt_wend (h : cfg.FirstMatch q o i) : cfg.smin + i * cfg.sstep + o < cfg.wend := by
  have hoffset := h.offset_lt
  have hnext : (i + 1) * cfg.sstep ≤ cfg.nsamp * cfg.sstep := Nat.mul_le_mul_right _ h.index_lt
  rw [Nat.succ_mul] at hnext
  rw [Config.wend]
  omega

end FirstMatch

section Search

variable {cfg : Config} {q : BitVec cfg.W} {d : Datum} (hcfg : cfg.WellFormed) (hs : cfg.hasSearch = true)
include hcfg hs

/-- The samples are tested in index order, and the table is the list of `Config.sampleAt`. -/
theorem Config.find?_sptSpace (c : BitVec cfg.W) :
    cfg.sptSpace.find? (fun e => c == e.st) =
      ((List.range cfg.nsamp).find? fun i => c == cfg.stateAt (cfg.smin + i * cfg.sstep)).map cfg.sampleAt := by
  rw [Config.sptSpace, if_pos hs, spt_eq_map (hcfg.wf3 hs).1, List.find?_map]
  rfl

/-- The loop that has tried every offset below `o` in vain, with the remaining `n` to go. -/
theorem Config.searchFrom_outcome {n o : Nat} (hn : o + n = cfg.sstep)
    (hnone : ∀ o' i', i' < cfg.nsamp → o' < o → ¬cfg.Matches q o' i') :
    cfg.SearchOutcome q (searchFrom cfg.invMask cfg.sptSpace n o (cfg.down^[o] q)) := by
  induction n generalizing o with
  | zero => exact .absent fun o' i' ho' hi' => hnone o' i' hi' (by omega)
  | succ n ih =>
    rw [searchFrom, find?_sptSpace hcfg hs]
    cases hfind : (List.range cfg.nsamp).find? _ with
    | some i =>
      obtain ⟨hhit, hi, hfirst⟩ := List.find?_range_eq_some.mp hfind
      have hi := List.mem_range.mp hi
      simp only [Option.map_some, sampleAt_pos_toNat hcfg hs hi]
      refine .found ⟨by omega, hi, eq_of_beq hhit, ?_⟩
      rintro o' i' hi' (hlt | ⟨rfl, hlt⟩)
      · exact hnone o' i' hi' hlt
      · simpa [Config.Matches] using hfirst i' hlt
    | none =>
      rw [List.find?_range_eq_none] at hfind
      have hnext : ∀ o' i', i' < cfg.nsamp → o' < o + 1 → ¬cfg.Matches q o' i' := by
        intro o' i' hi' ho'
        obtain hlt | rfl := Nat.lt_succ_iff_lt_or_eq.mp ho'
        · exact hnone o' i' hi' hlt
        · simpa [Config.Matches] using hfind i' hi'
      have h := ih (by omega) hnext
      rwa [Function.iterate_succ_apply'] at h

theorem Config.searchPosition_outcome (q : BitVec cfg.W) : cfg.SearchOutcome q (searchPosition cfg q) :=
  searchFrom_outcome hcfg hs (Nat.zero_add _) fun _ _ _ h => absurd h (Nat.not_lt_zero _)

/-- Everything a search lookup can answer. -/
theorem Config.searchLookup_cases (q : BitVec cfg.W) :
    (∃ o i, cfg.FirstMatch q o i ∧
        searchLookup cfg q = ⟨.ok, BitVec.ofNat 32 (cfg.smin + i * cfg.sstep + o)⟩) ∨
      (cfg.NoMatch q ∧ searchLookup cfg q = ⟨.absent, 0#32⟩) := by
  have hout := searchPosition_outcome hcfg hs q
  rw [searchLookup]
  generalize searchPosition cfg q = r at hout
  cases hout with
  | found h => exact .inl ⟨_, _, h, rfl⟩
  | absent h => exact .inr ⟨h, rfl⟩

theorem Config.FirstMatch.searchLookup_eq {o i : Nat} (h : cfg.FirstMatch q o i) :
    searchLookup cfg q = ⟨.ok, BitVec.ofNat 32 (cfg.smin + i * cfg.sstep + o)⟩ := by
  obtain ⟨o', i', h', heq⟩ | ⟨hno, _⟩ := searchLookup_cases hcfg hs q
  · obtain ⟨rfl, rfl⟩ := h.unique h'
    exact heq
  · exact absurd h.hit (hno o i h.offset_lt h.index_lt)

theorem Config.NoMatch.searchLookup_eq (hno : cfg.NoMatch q) : searchLookup cfg q = ⟨.absent, 0#32⟩ := by
  obtain ⟨o, i, h, _⟩ | ⟨_, heq⟩ := searchLookup_cases hcfg hs q
  · exact absurd h.hit (hno o i h.offset_lt h.index_lt)
  · exact heq

/-- Every position below the window's end is answered whole (00_scope R6, WF3). -/
theorem Config.lt_two_pow_of_lt_wend {r : Nat} (hr : r < cfg.wend) : r < 2 ^ 32 :=
  hr.trans_le (hcfg.wf3 hs).2.2.2

/-- A reported datum is the exact sum at the first match. -/
theorem Config.exists_firstMatch_of_ok (h : searchLookup cfg q = ⟨.ok, d⟩) :
    ∃ o i, cfg.FirstMatch q o i ∧ d.toNat = cfg.smin + i * cfg.sstep + o := by
  obtain ⟨o, i, hfirst, heq⟩ | ⟨_, heq⟩ := searchLookup_cases hcfg hs q <;> rw [h] at heq <;> cases heq
  exact ⟨o, i, hfirst, Nat.mod_eq_of_lt (lt_two_pow_of_lt_wend hcfg hs hfirst.lt_wend)⟩

end Search

/-! ## The effective window (R100) -/

section Window

variable {cfg : Config}

/-- The window is covered by the samples, each with the offsets below the stride. -/
theorem Config.exists_sample_offset {p : Nat} (hstep : 1 ≤ cfg.sstep) (hlo : cfg.smin ≤ p) (hhi : p < cfg.wend) :
    ∃ o i, o < cfg.sstep ∧ i < cfg.nsamp ∧ cfg.smin + i * cfg.sstep + o = p := by
  rw [Config.wend] at hhi
  refine ⟨(p - cfg.smin) % cfg.sstep, (p - cfg.smin) / cfg.sstep, Nat.mod_lt _ hstep, ?_, ?_⟩
  · rw [Nat.div_lt_iff_lt_mul hstep]
    omega
  · have hdiv := Nat.div_add_mod' (p - cfg.smin) cfg.sstep
    omega

variable (hcfg : cfg.WellFormed) (hs : cfg.hasSearch = true)
include hcfg hs

theorem Config.smax_le_wend : cfg.smax ≤ cfg.wend :=
  Nat.le_of_not_lt (mt (lt_nsamp_iff (hcfg.wf3 hs).1 cfg.nsamp).mpr (Nat.lt_irrefl _))

/-- The last sample lies below `SMAX`. -/
theorem Config.wend_lt_smax_add_sstep : cfg.wend < cfg.smax + cfg.sstep := by
  obtain ⟨hstep, hrange, _, _⟩ := hcfg.wf3 hs
  have hlast := lt_nsamp_iff hstep (cfg.nsamp - 1)
  rw [Config.wend]
  obtain hzero | hpos := Nat.eq_zero_or_pos cfg.nsamp
  · rw [hzero]
    omega
  · have hsplit : cfg.nsamp * cfg.sstep = (cfg.nsamp - 1) * cfg.sstep + cfg.sstep := by
      rw [← Nat.succ_mul, Nat.succ_eq_add_one, Nat.sub_add_cancel hpos]
    omega

/-- The window is `NSAMP` whole strides, so it ends at `SMAX` exactly when the sampled range is. -/
theorem Config.wend_eq_smax_iff : cfg.wend = cfg.smax ↔ cfg.sstep ∣ cfg.smax - cfg.smin := by
  have hle := smax_le_wend hcfg hs
  have hlt := wend_lt_smax_add_sstep hcfg hs
  obtain ⟨_, hrange, _, _⟩ := hcfg.wf3 hs
  have hwend : cfg.wend = cfg.smin + cfg.nsamp * cfg.sstep := rfl
  have hlen : cfg.smax - cfg.smin + (cfg.wend - cfg.smax) = cfg.nsamp * cfg.sstep := by omega
  constructor
  · intro heq
    rw [heq, Nat.sub_self, Nat.add_zero] at hlen
    exact hlen ▸ Nat.dvd_mul_left ..
  · intro hdvd
    have hexcess : cfg.sstep ∣ cfg.wend - cfg.smax := (Nat.dvd_add_right hdvd).mp (hlen ▸ Nat.dvd_mul_left ..)
    have hzero := Nat.eq_zero_of_dvd_of_lt hexcess (by omega)
    omega

/-- A reported position is in the window. -/
theorem Config.searchLookup_ok_mem_window {q : BitVec cfg.W} {d : Datum} (h : searchLookup cfg q = ⟨.ok, d⟩) :
    cfg.smin ≤ d.toNat ∧ d.toNat < cfg.wend := by
  obtain ⟨o, i, hfirst, hd⟩ := exists_firstMatch_of_ok hcfg hs h
  have hlt := hfirst.lt_wend
  omega

end Window

/-! ## Searching with a tap at `W` (R99 to R101) -/

section TopTap

variable {cfg : Config} (hcfg : cfg.WellFormed) (htap : cfg.W ∈ cfg.taps)
include hcfg htap

/-- Backward steps from `q` lead to position `p` exactly when as many forward steps lead from there to `q`. -/
theorem Config.down_iterate_eq_stateAt_iff {q : BitVec cfg.W} {o p : Nat} :
    cfg.down^[o] q = cfg.stateAt p ↔ cfg.stateAt (p + o) = q := by
  have hforward : cfg.up^[o] (cfg.stateAt p) = cfg.stateAt (p + o) := by
    have h := up_iterate_stateAt (cfg := cfg) (Nat.le_add_right p o)
    rwa [Nat.add_sub_cancel_left] at h
  have hup : Function.LeftInverse cfg.up^[o] cfg.down^[o] := Function.LeftInverse.iterate (up_down hcfg htap) o
  have hdown : Function.LeftInverse cfg.down^[o] cfg.up^[o] := Function.LeftInverse.iterate (down_up hcfg htap) o
  rw [← hforward]
  exact ⟨fun h => h ▸ hup q, fun h => h ▸ hdown _⟩

/-- The walk never takes in 0, cycle-complete or not: 0 follows 0 alone. -/
theorem Config.stateAt_ne_zero_of_top_tap (p : Nat) : cfg.stateAt p ≠ 0#cfg.W := by
  induction p with
  | zero => exact one_ne_zero_of_pos hcfg.pos
  | succ p ih =>
    rw [stateAt_succ]
    exact fun hzero => ih (((Config.up_bijective_iff hcfg).mpr htap).injective (hzero.trans up_zero.symm))

variable (hs : cfg.hasSearch = true)
include hs

/-- A search is a search for the query among the states of the window. -/
theorem Config.searchLookup_window (q : BitVec cfg.W) :
    (∃ r, cfg.smin ≤ r ∧ r < cfg.wend ∧ cfg.stateAt r = q ∧ searchLookup cfg q = ⟨.ok, BitVec.ofNat 32 r⟩) ∨
      ((∀ r, cfg.smin ≤ r → r < cfg.wend → cfg.stateAt r ≠ q) ∧ searchLookup cfg q = ⟨.absent, 0#32⟩) := by
  obtain ⟨o, i, hfirst, heq⟩ | ⟨hno, heq⟩ := searchLookup_cases hcfg hs q
  · exact .inl ⟨_, by omega, hfirst.lt_wend, (down_iterate_eq_stateAt_iff hcfg htap).mp hfirst.hit, heq⟩
  · refine .inr ⟨fun r hlo hhi hr => ?_, heq⟩
    obtain ⟨o, i, ho, hi, rfl⟩ := exists_sample_offset (hcfg.wf3 hs).1 hlo hhi
    exact hno o i ho hi ((down_iterate_eq_stateAt_iff hcfg htap).mpr hr)

theorem Config.stateAt_of_searchLookup_ok {q : BitVec cfg.W} {d : Datum} (h : searchLookup cfg q = ⟨.ok, d⟩) :
    cfg.stateAt d.toNat = q := by
  obtain ⟨o, i, hfirst, hd⟩ := exists_firstMatch_of_ok hcfg hs h
  rw [hd]
  exact (down_iterate_eq_stateAt_iff hcfg htap).mp hfirst.hit

theorem Config.exists_searchLookup_of_mem_window {p : Nat} (hlo : cfg.smin ≤ p) (hhi : p < cfg.wend) :
    ∃ r, cfg.smin ≤ r ∧ r < cfg.wend ∧ cfg.stateAt r = cfg.stateAt p ∧
      searchLookup cfg (cfg.stateAt p) = ⟨.ok, BitVec.ofNat 32 r⟩ := by
  obtain h | ⟨hno, _⟩ := searchLookup_window hcfg htap hs (cfg.stateAt p)
  · exact h
  · exact absurd rfl (hno p hlo hhi)

theorem Config.searchLookup_absent_iff {q : BitVec cfg.W} :
    (searchLookup cfg q).status = .absent ↔ ∀ r, cfg.smin ≤ r → r < cfg.wend → cfg.stateAt r ≠ q := by
  obtain ⟨r, hlo, hhi, hr, heq⟩ | ⟨hno, heq⟩ := searchLookup_window hcfg htap hs q <;> rw [heq]
  · exact ⟨nofun, fun h => absurd hr (h r hlo hhi)⟩
  · exact ⟨fun _ => hno, fun _ => rfl⟩

theorem Config.searchLookup_zero : searchLookup cfg 0#cfg.W = ⟨.absent, 0#32⟩ := by
  obtain ⟨r, _, _, hr, _⟩ | ⟨_, heq⟩ := searchLookup_window hcfg htap hs 0#cfg.W
  · exact absurd hr (stateAt_ne_zero_of_top_tap hcfg htap r)
  · exact heq

end TopTap

/-! ## Positions of a cycle-complete configuration -/

section Cycle

variable {cfg : Config} (hcc : cfg.CycleComplete)
include hcc

theorem Config.CycleComplete.stateAt_mod (p : Nat) : cfg.stateAt (p % cfg.seqLen) = cfg.stateAt p :=
  Function.IsPeriodicPt.iterate_mod_apply hcc.2 p

theorem Config.CycleComplete.stateAt_eq_iff_modEq (hpos : 0 < cfg.W) {i j : Nat} :
    cfg.stateAt i = cfg.stateAt j ↔ i ≡ j [MOD cfg.seqLen] := by
  have hlen := seqLen_pos hpos
  rw [← hcc.stateAt_mod i, ← hcc.stateAt_mod j]
  exact ⟨hcc.stateAt_injective (Nat.mod_lt _ hlen) (Nat.mod_lt _ hlen), congrArg cfg.stateAt⟩

/-- A range of at most one cycle holds no state twice. -/
theorem Config.CycleComplete.eq_of_stateAt_eq (hpos : 0 < cfg.W) {a n i j : Nat} (hn : n ≤ cfg.seqLen)
    (hi : a ≤ i ∧ i < a + n) (hj : a ≤ j ∧ j < a + n) (h : cfg.stateAt i = cfg.stateAt j) : i = j := by
  have hmod := (hcc.stateAt_eq_iff_modEq hpos).mp h
  refine hmod.eq_of_abs_lt ?_
  rw [abs_lt]
  omega

end Cycle

/-! ## The obligations on the Search Index -/

/-- Settles O51 (R95): the search ends at its one first match, and its table has the samples of indexes below `NSAMP`. -/
theorem searchLookupTakesTheFirstMatch : Obligations.SearchLookupTakesTheFirstMatch := by
  unfold Obligations.SearchLookupTakesTheFirstMatch
  intro cfg hcfg hs q
  simp only [Config.readSpt_eq_some_iff hs (hcfg.wf3 hs).1]
  refine ⟨?_, fun hno => ?_, fun hzero => ?_⟩
  · rintro o i _ ho ⟨hi, rfl⟩ hhit hbefore
    have hfirst : cfg.FirstMatch q o i := ⟨ho, hi, hhit, fun o' i' hi' => hbefore o' i' _ ⟨hi', rfl⟩⟩
    rw [Config.sampleAt_pos_toNat hcfg hs hi]
    exact ⟨Config.lt_two_pow_of_lt_wend hcfg hs hfirst.lt_wend, hfirst.searchLookup_eq hcfg hs⟩
  · have hnone : cfg.NoMatch q := fun o i ho hi => hno o i _ ho ⟨hi, rfl⟩
    exact hnone.searchLookup_eq hcfg hs
  · have hnone : cfg.NoMatch q := fun o i _ hi => absurd hi (by omega)
    exact hnone.searchLookup_eq hcfg hs

/-- Settles O52 (R99): the first match, stepped forward again. -/
theorem searchLookupIsSound : Obligations.SearchLookupIsSound := by
  unfold Obligations.SearchLookupIsSound
  exact fun cfg hcfg hs htap q r => Config.stateAt_of_searchLookup_ok hcfg htap hs

/-- Settles O53 (R100): a search is a search among the states of the window, which are distinct where it fits in a cycle. -/
theorem searchLookupIsCompleteOnTheEffectiveWindow : Obligations.SearchLookupIsCompleteOnTheEffectiveWindow := by
  unfold Obligations.SearchLookupIsCompleteOnTheEffectiveWindow
  intro cfg hcfg hs
  refine ⟨⟨Config.smax_le_wend hcfg hs, ?_, Config.wend_eq_smax_iff hcfg hs⟩, fun htap p hlo hhi => ?_, fun q d h => ?_,
    fun hcc hfit => ⟨fun p hlo hhi => ?_, fun q => ?_⟩⟩
  · have hend := Config.wend_lt_smax_add_sstep hcfg hs
    omega
  · obtain ⟨r, hrlo, hrhi, _, heq⟩ := Config.exists_searchLookup_of_mem_window hcfg htap hs hlo hhi
    exact ⟨r, hrlo, hrhi, heq⟩
  · have hwin := Config.searchLookup_ok_mem_window hcfg hs h
    omega
  · obtain ⟨r, hrlo, hrhi, hr, heq⟩ := Config.exists_searchLookup_of_mem_window hcfg (hcc.top_tap hcfg) hs hlo hhi
    rwa [hcc.eq_of_stateAt_eq hcfg.pos hfit ⟨hrlo, hrhi⟩ ⟨hlo, hhi⟩ hr] at heq
  · rw [Config.searchLookup_absent_iff hcfg (hcc.top_tap hcfg) hs]
    constructor
    · intro hno
      refine .inr fun p r _ hp hlo hhi hmod => hno r hlo hhi ?_
      exact ((hcc.stateAt_eq_iff_modEq hcfg.pos).mpr hmod).trans hp
    · rintro (rfl | hno) r hlo hhi hr
      · exact hcc.stateAt_ne_zero hcfg.pos r hr
      · refine hno (r % cfg.seqLen) r (Nat.mod_lt _ (Config.seqLen_pos hcfg.pos)) ?_ hlo hhi (Nat.mod_mod ..).symm
        exact (hcc.stateAt_mod r).trans hr

/-- Settles O54 (R103): the result is a step count to the query, taken from a window that ends less than a stride after
`SMAX`. -/
theorem searchResultIsNotReduced : Obligations.SearchResultIsNotReduced := by
  unfold Obligations.SearchResultIsNotReduced
  refine ⟨fun cfg hcfg hs hcc q d h => ?_, by decide⟩
  have hlen := Config.seqLen_pos hcfg.pos
  obtain ⟨_, _, hmax, _⟩ := hcfg.wf3 hs
  have hend := Config.wend_lt_smax_add_sstep hcfg hs
  obtain ⟨_, hhi⟩ := Config.searchLookup_ok_mem_window hcfg hs h
  refine ⟨⟨d.toNat % cfg.seqLen, Nat.mod_lt _ hlen, ?_, rfl⟩, by omega, by omega, by omega⟩
  rw [hcc.stateAt_mod]
  exact Config.stateAt_of_searchLookup_ok hcfg (hcc.top_tap hcfg) hs h

end Sys2Proof

namespace Sys2Proof.Machine

/-! ## The search commands (R96, R97) -/

section SearchCommands

variable {s : State} (hf : s.arch.fault = false)
include hf

/-- A command whose index is absent raises `RESERVED_OP`. -/
theorem exec_of_not_present {i : Instr} (hp : i.present s.cfg = false) :
    exec i s = .next { s with arch.fault := true, arch.fcause := 1#2, rsp := some ⟨.fault, 1#32⟩ } :=
  exec_of_command (command_of_not_present hf hp)

variable (hs : s.cfg.hasSearch = true)
include hs

theorem exec_lks : exec .lks s = .next { s with rsp := some (searchLookup s.cfg s.arch.state) } :=
  exec_of_command (Arch.dispatch_valid hf hs)

theorem exec_lksi_of_lt {imm : Imm} (hlt : imm.toNat < 2 ^ s.cfg.W) :
    exec (.lksi imm) s = .next { s with rsp := some (searchLookup s.cfg (imm.setWidth s.cfg.W)) } :=
  exec_of_command ((Arch.dispatch_valid hf hs).trans (Arch.withOperand_of_lt hlt))

theorem exec_lksi_of_ge {imm : Imm} (hge : 2 ^ s.cfg.W ≤ imm.toNat) :
    exec (.lksi imm) s = .next { s with arch.fault := true, arch.fcause := 2#2, rsp := some ⟨.fault, 2#32⟩ } :=
  exec_of_command ((Arch.dispatch_valid hf hs).trans (Arch.withOperand_of_ge hge))

end SearchCommands

/-- Settles O10 (R96, R101): 0 is no state of the window, since the walk never takes it in. -/
theorem lksAnswersTheSearchOfTheRegister : Obligations.LksAnswersTheSearchOfTheRegister := by
  unfold Obligations.LksAnswersTheSearchOfTheRegister
  exact ⟨fun s hs hf => exec_lks hf hs, fun s hs hf => exec_of_not_present hf hs,
    fun cfg hcfg hs htap => Config.searchLookup_zero hcfg htap hs, decode_assemble_opcode (i := .lks) (by decide)⟩

/-- Settles O11 (R97). -/
theorem lksiAnswersTheSearchOfItsOperand : Obligations.LksiAnswersTheSearchOfItsOperand := by
  unfold Obligations.LksiAnswersTheSearchOfItsOperand
  exact ⟨fun imm s hs hf => ⟨exec_lksi_of_lt hf hs, exec_lksi_of_ge hf hs⟩,
    fun imm s hs hf => exec_of_not_present hf hs, fun imm => decode_encode (.lksi imm)⟩

end Sys2Proof.Machine

namespace Sys2Proof

open Machine

/-! # 44_direct_index: the direct lookup, and `LKD` and `LKDI` -/

/-! ## What a direct lookup answers (R104, R108) -/

section DirectLookup

variable {cfg : Config}

/-- Positions stop short of the sentinel `2^W - 1` (42_table_builder R91). -/
theorem Config.ofNat_ne_sentinel {p : Nat} (hp : p < cfg.seqLen) : BitVec.ofNat cfg.W p ≠ cfg.sentinel := by
  intro heq
  have hval := congrArg BitVec.toNat heq
  rw [Config.seqLen] at hp
  rw [BitVec.toNat_ofNat, Nat.mod_eq_of_lt (by omega), Config.sentinel, BitVec.toNat_allOnes] at hval
  omega

variable (hd : cfg.hasDirect = true)
include hd

theorem Config.directLookup_zero : directLookup cfg 0#cfg.W = some ⟨.absent, cfg.sentinel.setWidth 32⟩ := by
  rw [directLookup, readRev_zero hd]
  exact congrArg some (if_pos rfl)

variable (hcfg : cfg.WellFormed)
include hcfg

theorem Config.directLookup_stateAt {p : Nat} (hp : p < cfg.seqLen) :
    directLookup cfg (cfg.stateAt p) = some ⟨.ok, BitVec.ofNat 32 p⟩ := by
  have hwide : (BitVec.ofNat cfg.W p).setWidth 32 = BitVec.ofNat 32 p := by
    apply BitVec.eq_of_toNat_eq
    rw [Config.seqLen] at hp
    rw [BitVec.toNat_setWidth, BitVec.toNat_ofNat, BitVec.toNat_ofNat, Nat.mod_eq_of_lt (a := p) (by omega)]
  rw [directLookup, readRev_stateAt hd hcfg hp, Option.map_some, if_neg (ofNat_ne_sentinel hp), hwide]

/-- However many steps lead to a state, the lookup reports their number modulo `SEQ_LEN`. -/
theorem Config.directLookup_of_stateAt_eq {p : Nat} {q : BitVec cfg.W} (h : cfg.stateAt p = q) :
    directLookup cfg q = some ⟨.ok, BitVec.ofNat 32 (p % cfg.seqLen)⟩ := by
  rw [← h, ← (hcfg.wf4 hd).stateAt_mod p]
  exact directLookup_stateAt hd hcfg (Nat.mod_lt _ (seqLen_pos hcfg.pos))

end DirectLookup

/-- A backward step from position `r` leads to the position before it in the cycle. -/
theorem Config.CycleComplete.stateAt_add_seqLen_sub_one {cfg : Config} (hcc : cfg.CycleComplete)
    (hcfg : cfg.WellFormed) (r : Nat) : cfg.stateAt (r + cfg.seqLen - 1) = cfg.down (cfg.stateAt r) := by
  have hlen := seqLen_pos hcfg.pos
  have hsucc : r + cfg.seqLen - 1 + 1 = r + cfg.seqLen := by omega
  have hup : cfg.stateAt r = cfg.up (cfg.stateAt (r + cfg.seqLen - 1)) := by
    rw [← stateAt_succ, hsucc, hcc.stateAt_add_seqLen]
  rw [hup, Config.down_up hcfg (hcc.top_tap hcfg)]

end Sys2Proof

namespace Sys2Proof.Machine

/-! ## The lookup commands (R105, R106) -/

section DirectCommands

variable {s : State} (hf : s.arch.fault = false) (hd : s.cfg.hasDirect = true)
include hf hd

theorem exec_lkd {r : Response} (h : directLookup s.cfg s.arch.state = some r) :
    exec .lkd s = .next { s with rsp := some r } :=
  exec_of_command ((Arch.dispatch_valid hf hd).trans (respondDirect_of_some h))

theorem exec_lkdi_of_lt {imm : Imm} {r : Response} (hlt : imm.toNat < 2 ^ s.cfg.W)
    (h : directLookup s.cfg (imm.setWidth s.cfg.W) = some r) :
    exec (.lkdi imm) s = .next { s with rsp := some r } :=
  exec_of_command ((Arch.dispatch_valid hf hd).trans ((Arch.withOperand_of_lt hlt).trans (respondDirect_of_some h)))

theorem exec_lkdi_of_ge {imm : Imm} (hge : 2 ^ s.cfg.W ≤ imm.toNat) :
    exec (.lkdi imm) s = .next { s with arch.fault := true, arch.fcause := 2#2, rsp := some ⟨.fault, 2#32⟩ } :=
  exec_of_command ((Arch.dispatch_valid hf hd).trans (Arch.withOperand_of_ge hge))

variable (hcfg : s.cfg.WellFormed)
include hcfg

/-- `LKD` where the position of the register is known. -/
theorem exec_lkd_of_position {p : Nat} (hp : p < s.cfg.seqLen) (h : s.cfg.stateAt p = s.arch.state) :
    exec .lkd s = .next { s with rsp := some ⟨.ok, BitVec.ofNat 32 p⟩ } :=
  exec_lkd hf hd (h ▸ Config.directLookup_stateAt hd hcfg hp)

/-- `LKD` after a command that left a state of the walk in the register. -/
theorem exec_lkd_of_written {p : Nat} {v : BitVec s.cfg.W} (rsp : Option Response) (h : s.cfg.stateAt p = v) :
    exec .lkd { s with arch.state := v, rsp := rsp } =
      .next { s with arch.state := v, rsp := some ⟨.ok, BitVec.ofNat 32 (p % s.cfg.seqLen)⟩ } :=
  exec_lkd (s := { s with arch.state := v, rsp := rsp }) hf hd (Config.directLookup_of_stateAt_eq hd hcfg h)

end DirectCommands

/-! ## The obligations on the Direct Index -/

/-- Settles O8 (R105): 1, `FWD_MASK` and 2 are the states at positions 0, 1 and `SEQ_LEN - 1`. -/
theorem lkdAnswersThePositionOfTheRegister : Obligations.LkdAnswersThePositionOfTheRegister := by
  unfold Obligations.LkdAnswersThePositionOfTheRegister
  refine ⟨fun s hcfg hd hf => ?_, fun s hd hf => exec_of_not_present hf hd,
    decode_assemble_opcode (i := .lkd) (by decide)⟩
  have hcc := hcfg.wf4 hd
  have hlen := two_lt_two_pow hcfg.wf1.1
  have hseq : s.cfg.seqLen = 2 ^ s.cfg.W - 1 := rfl
  refine ⟨fun hs => ?_, fun hs => ?_, fun hs => ?_, fun hs => ?_, fun hs => ?_⟩
  · exact exec_lkd hf hd (hs ▸ Config.directLookup_zero hd)
  · obtain ⟨p, hp, hstate⟩ := hcc.exists_stateAt hcfg.pos hs
    exact ⟨p, hp, hstate, exec_lkd_of_position hf hd hcfg hp hstate⟩
  · exact exec_lkd_of_position hf hd hcfg (p := 0) (by omega) hs.symm
  · exact exec_lkd_of_position hf hd hcfg (p := 1) (by omega) (hs ▸ Config.stateAt_one hcfg.pos)
  · refine exec_lkd_of_position hf hd hcfg (by omega) ?_
    rw [hs, hcc.stateAt_last hcfg]
    exact down_one hcfg.wf1.1

/-- Settles O9 (R106): an operand that fits is a state of the walk, or 0. -/
theorem lkdiAnswersThePositionOfItsOperand : Obligations.LkdiAnswersThePositionOfItsOperand := by
  unfold Obligations.LkdiAnswersThePositionOfItsOperand
  refine ⟨fun imm s hcfg hd hf => ⟨?_, fun himm hlt => ?_, exec_lkdi_of_ge hf hd⟩,
    fun imm s hd hf => exec_of_not_present hf hd, fun imm => decode_encode (.lkdi imm)⟩
  · rintro rfl
    refine exec_lkdi_of_lt hf hd (Nat.two_pow_pos _) ?_
    rw [BitVec.setWidth_zero]
    exact Config.directLookup_zero hd
  · have hne := mt (eq_zero_of_setWidth_eq_zero hlt) himm
    obtain ⟨p, hp, hstate⟩ := (hcfg.wf4 hd).exists_stateAt hcfg.pos hne
    exact ⟨p, hp, hstate, exec_lkdi_of_lt hf hd hlt (hstate ▸ Config.directLookup_stateAt hd hcfg hp)⟩

/-- Settles O55 (R108): every nonzero value is a state of the walk, and a position below `2^W` is answered whole. -/
theorem directLookupIsTotal : Obligations.DirectLookupIsTotal := by
  unfold Obligations.DirectLookupIsTotal
  refine fun cfg hcfg hd => ⟨fun q hq => ?_, Config.directLookup_zero hd⟩
  obtain ⟨p, hp, rfl⟩ := (hcfg.wf4 hd).exists_stateAt hcfg.pos hq
  have hwidth : 2 ^ cfg.W ≤ 2 ^ 32 := Nat.pow_le_pow_right Nat.two_pos hcfg.wf1.2
  have hwhole : p < 2 ^ 32 := by
    rw [Config.seqLen] at hp
    omega
  exact ⟨p, by omega, rfl, Config.directLookup_stateAt hd hcfg hp, Nat.mod_eq_of_lt hwhole⟩

/-- Settles O56 (R109): `INC` and `DEC` lead to the states at positions `r + 1` and `r + SEQ_LEN - 1`. -/
theorem directLookupFollowsTheSteps : Obligations.DirectLookupFollowsTheSteps := by
  unfold Obligations.DirectLookupFollowsTheSteps
  refine ⟨fun cfg hcfg hd p => Config.directLookup_stateAt hd hcfg, fun s hcfg hd hf hs => ?_⟩
  have hcc := hcfg.wf4 hd
  obtain ⟨r, hr, hstate⟩ := hcc.exists_stateAt hcfg.pos hs
  have hnext : s.cfg.stateAt (r + 1) = s.cfg.up s.arch.state := hstate ▸ Config.stateAt_succ r
  have hprev : s.cfg.stateAt (r + s.cfg.seqLen - 1) = s.cfg.down s.arch.state :=
    hstate ▸ hcc.stateAt_add_seqLen_sub_one hcfg r
  exact ⟨r, hr, hstate, fun r' hr' hstate' => hcc.stateAt_injective hr' hr (hstate'.trans hstate.symm),
    exec_lkd_of_position hf hd hcfg hr hstate, ⟨_, exec_inc hf, exec_lkd_of_written hf hd hcfg _ hnext⟩,
    ⟨_, exec_dec hf, exec_lkd_of_written hf hd hcfg _ hprev⟩⟩

/-- Settles O57 (R110): the search reports a number of steps to the query, and the direct lookup reduces it. -/
theorem theTwoIndexesAgree : Obligations.TheTwoIndexesAgree := by
  unfold Obligations.TheTwoIndexesAgree
  intro cfg hcfg hd hs q d h
  have htap := (hcfg.wf4 hd).top_tap hcfg
  exact Config.directLookup_of_stateAt_eq hd hcfg (Config.stateAt_of_searchLookup_ok hcfg htap hs h)

end Sys2Proof.Machine

namespace Sys2Proof.Machine

/-! # 60_exceptions: fault entry, and the faulted state -/

section Faults

variable {s : State}

/-- Of the four shapes of an answer, only a fault entry takes a triple into the faulted state (R113). -/
theorem Effect.eq_fault_entry {W : Nat} {a : Arch W} {o : Arch W × Response} (h : Effect a o) (ha : a.fault = false)
    (ho : o.1.fault = true) :
    ∃ c : Cause, o = ({ a with fault := true, fcause := c.code }, faultResponse c.code) := by
  cases h with
  | refused hf => simp [ha] at hf
  | wrote => simp [ha] at ho
  | answered => simp [ha] at ho
  | faulted _ c => exact ⟨c, rfl⟩

/-- A faulted engine answers every command word with its cause and keeps everything else (R114). -/
theorem step_of_faulted {w : CommandWord} {rest : List Input} (hin : s.inputs = .command w :: rest)
    (hf : s.arch.fault = true) :
    step s = .next { s with inputs := rest, rsp := some (faultResponse s.arch.fcause) } := by
  rw [step_command hin, transition_of_faulted hf]
  rfl

/-- A run of command words on a faulted engine answers each with the cause, and keeps the configuration and the triple
(R114). -/
theorem runInputs_commands_of_faulted (hf : s.arch.fault = true) (ws : List CommandWord) :
    ∃ ins rsp, runInputs (ws.map .command) s =
      .next ({ s with inputs := ins, rsp := rsp }, List.replicate ws.length (faultResponse s.arch.fcause)) := by
  induction ws generalizing s with
  | nil => exact ⟨s.inputs, s.rsp, rfl⟩
  | cons w ws ih =>
    have hone := step_of_faulted (s := s.presented (.command w)) rfl hf
    obtain ⟨ins, rsp, hrest⟩ := ih (s := { s with inputs := [], rsp := some (faultResponse s.arch.fcause) }) hf
    exact ⟨ins, rsp, runInputs_cons_next.mpr ⟨_, _, hone, hrest, rfl⟩⟩

/-- One reset takes any engine to the engine of its configuration right after reset, without an answer (R116). -/
theorem runInputs_reset (s : State) : runInputs [.reset] s = .next (State.resetOf s.cfg, []) :=
  runInputs_cons_next.mpr ⟨_, [], step_reset rfl, rfl, rfl⟩

end Faults

/-! ## The obligations on the faulted state -/

/-- Settles O23 (R113): a step that takes a command word delivers the command's answer, which is a fault entry. -/
theorem faultEntryWritesOnlyFaultAndCause : Obligations.FaultEntryWritesOnlyFaultAndCause := by
  unfold Obligations.FaultEntryWritesOnlyFaultAndCause
  intro s t w rest hin hs hstep ht
  rw [step_command hin] at hstep
  obtain ⟨a, r, ho, rfl⟩ := State.deliver_next hstep
  obtain ⟨c, hentry⟩ := (transition_effect ho).eq_fault_entry hs ht
  cases hentry
  exact ⟨c.code, c.code_eq_one_or_two, rfl⟩

/-- Settles O24 (R114, R116): by induction on the list of command words, each of which finds the same faulted triple. -/
theorem onlyResetLeavesTheFaultedState : Obligations.OnlyResetLeavesTheFaultedState := by
  unfold Obligations.OnlyResetLeavesTheFaultedState
  refine ⟨fun s ws hf => ?_, fun s => ⟨_, runInputs_reset s, rfl⟩⟩
  obtain ⟨ins, rsp, hrun⟩ := runInputs_commands_of_faulted hf ws
  exact ⟨_, hrun, rfl⟩

end Sys2Proof.Machine

namespace Sys2Proof.Machine

/-! # 30_encoding: decoding inverts encoding, and the opcode map selects the command -/

/-! ## A word decodes to a command exactly by its fields (R45, R48, R51) -/

section DecodedFields

variable {w : CommandWord} {i : Instr}

theorem opField_encode (i : Instr) : opField (encode i) = opcode i := opField_assemble _ _

theorem decode_eq_ok_iff :
    decode w = .ok i ↔ opField w = opcode i ∧ (opcode i ∈ [2#4, 9#4, 11#4] → immField w = immOf i) := by
  refine ⟨decode_ok_fields, fun ⟨hop, himm⟩ => ?_⟩
  cases i
  case load => simp [decode, hop, opcode, himm (by simp [opcode]), immOf]
  case lkdi => simp [decode, hop, opcode, himm (by simp [opcode]), immOf]
  case lksi => simp [decode, hop, opcode, himm (by simp [opcode]), immOf]
  all_goals simp [decode, hop, opcode]

theorem decode_eq_error_iff :
    (∃ e, decode w = .error e) ↔ opField w ∈ [0#4, 7#4, 12#4, 13#4, 14#4, 15#4] := by
  refine ⟨fun ⟨_, he⟩ => decode_error_opField he, fun hop => ?_⟩
  rw [← assemble_fields w]
  exact ⟨_, decode_assemble_reserved hop _⟩

/-- No bit of a word with an operand is lost in decoding it. -/
theorem eq_encode_of_decode_ok (h : decode w = .ok i) (hop : opcode i ∈ [2#4, 9#4, 11#4]) : w = encode i := by
  obtain ⟨hfield, himm⟩ := decode_ok_fields h
  rw [← assemble_fields w, hfield, himm hop, encode]

end DecodedFields

/-! ## The `match` and `mask` columns (R48) -/

section OpcodeMap

variable {w : CommandWord}

/-- The masked bits of a word are a row's `match` exactly when the word has that opcode. -/
theorem and_tableMask_eq_iff {op : BitVec 4} : w &&& tableMask = assemble op 0#32 ↔ opField w = op := by
  rw [← assemble_fields w, assemble_and_tableMask, opField_assemble]
  exact ⟨fun h => by simpa [opField_assemble] using congrArg opField h, fun h => by rw [h]⟩

theorem tableMatch_eq_assemble (i : Instr) : tableMatch i = assemble (opcode i) 0#32 := by
  cases i <;> simp only [tableMatch, opcode] <;> decide

/-- A word whose immediate is that of the command, where it has one, decodes to it exactly by its row. -/
theorem decode_eq_ok_iff_tableMatch {i : Instr} (himm : opcode i ∈ [2#4, 9#4, 11#4] → immField w = immOf i) :
    decode w = .ok i ↔ w &&& tableMask = tableMatch i := by
  rw [decode_eq_ok_iff, tableMatch_eq_assemble, and_tableMask_eq_iff, and_iff_left himm]

end OpcodeMap

/-- Settles O13: a word is its two fields, and decoding reads both for the commands that have an operand. -/
theorem decodeOfEncodeIsTheCommand : Obligations.DecodeOfEncodeIsTheCommand := by
  unfold Obligations.DecodeOfEncodeIsTheCommand
  refine ⟨decode_encode, fun w i h => ?_, fun w imm => ⟨fun h => ?_, fun h => ?_, fun h => ?_⟩⟩
  · rw [opField_encode, (decode_ok_fields h).1]
  all_goals exact eq_encode_of_decode_ok h (by simp [opcode])

/-- Settles O14: the masked word is the opcode with a zero immediate, and the opcode decides the row. -/
theorem opcodeMapSelectsTheCommand : Obligations.OpcodeMapSelectsTheCommand := by
  unfold Obligations.OpcodeMapSelectsTheCommand
  intro w
  have hplain {i : Instr} (h : opcode i ∉ [2#4, 9#4, 11#4]) : decode w = .ok i ↔ w &&& tableMask = tableMatch i :=
    decode_eq_ok_iff_tableMatch (absurd · h)
  have hreserved : [0x000000000#36, 0x700000000#36, 0xC00000000#36, 0xD00000000#36, 0xE00000000#36, 0xF00000000#36] =
      [0#4, 7#4, 12#4, 13#4, 14#4, 15#4].map fun op => assemble op 0#32 := by decide
  refine ⟨hplain (i := .init) (by decide), decode_eq_ok_iff_tableMatch (i := .load _) fun _ => rfl,
    hplain (i := .get) (by decide), hplain (i := .inc) (by decide), hplain (i := .dec) (by decide),
    hplain (i := .seqlen) (by decide), hplain (i := .lkd) (by decide),
    decode_eq_ok_iff_tableMatch (i := .lkdi _) fun _ => rfl, hplain (i := .lks) (by decide),
    decode_eq_ok_iff_tableMatch (i := .lksi _) fun _ => rfl, ?_⟩
  rw [decode_eq_error_iff, hreserved, List.mem_map]
  exact ⟨fun hop => ⟨_, hop, (and_tableMask_eq_iff.mpr rfl).symm⟩,
    fun ⟨_, hop, hw⟩ => and_tableMask_eq_iff.mp hw.symm ▸ hop⟩

/-- Settles O15: each example word is the encoding of its command. -/
theorem exampleWordsDecode : Obligations.ExampleWordsDecode := by
  unfold Obligations.ExampleWordsDecode
  exact ⟨decode_encode .init, decode_encode (.load 0xACE1#32), decode_encode .get, decode_encode .inc,
    decode_encode .dec, decode_encode .seqlen, decode_encode .lkd, decode_encode (.lkdi 2#32), decode_encode .lks,
    decode_encode (.lksi 0xB6EDB003#32)⟩

end Sys2Proof.Machine

namespace Sys2Proof

open Machine

/-! # 00_scope: the checks at elaboration -/

/-! ## The cycle check (WF4, 42_table_builder R89) -/

theorem Machine.returnsAfter_iff {W : Nat} {fwd x : BitVec W} {n : Nat} :
    returnsAfter fwd n x = true ↔ (∀ k, k < n → (up fwd)^[k] x ≠ 1#W) ∧ (up fwd)^[n] x = 1#W := by
  induction n generalizing x with
  | zero => simp [returnsAfter]
  | succ n ih =>
    simp only [returnsAfter, Bool.and_eq_true, Bool.not_eq_true', beq_eq_false_iff_ne, ih, Function.iterate_succ_apply,
      Nat.forall_lt_succ_left', Function.iterate_zero_apply, and_assoc]

section Elaboration

variable {cfg : Config}

/-- The walk is back at 1 for the first time at step `SEQ_LEN` exactly when its states before are distinct. -/
theorem Config.cycleCheck_iff (hpos : 0 < cfg.W) : cfg.cycleCheck = true ↔ cfg.CycleComplete := by
  have hlen := seqLen_pos hpos
  have hshift (k : Nat) : (Machine.up cfg.fwdMask)^[k] (cfg.up 1#cfg.W) = cfg.stateAt (k + 1) := rfl
  rw [cycleCheck, returnsAfter_iff]
  simp only [hshift, Nat.sub_add_cancel hlen]
  refine ⟨fun ⟨hne, hreturn⟩ => ?_, fun hcc => ⟨fun k hk heq => ?_, hcc.2⟩⟩
  · rw [cycleComplete_iff_minimalPeriod hpos]
    have hper : Function.IsPeriodicPt cfg.up cfg.seqLen 1#cfg.W := hreturn
    have hmin := hper.minimalPeriod_pos hlen
    refine (hper.minimalPeriod_le hlen).eq_of_not_lt fun hlt => ?_
    refine hne (Function.minimalPeriod cfg.up 1#cfg.W - 1) (by omega) ?_
    rw [Nat.sub_add_cancel hmin]
    exact Function.iterate_minimalPeriod
  · exact hcc.1 0 (k + 1) (Nat.succ_pos k) (by omega) heq.symm

theorem Config.wf_iff : cfg.wf = true ↔ cfg.WellFormed := by
  have hwf4 (hpos : 0 < cfg.W) : cfg.wf4 = true ↔ (cfg.hasDirect = true → cfg.CycleComplete) := by
    rw [← cycleCheck_iff hpos, wf4]
    cases cfg.hasDirect <;> simp
  have hwf2 : cfg.wf2 = true ↔ cfg.taps ≠ [] ∧ (∀ t ∈ cfg.taps, 1 ≤ t ∧ t ≤ cfg.W) ∧ cfg.taps.Nodup := by
    simp [wf2, and_assoc]
  have hwf3 : cfg.wf3 = true ↔ (cfg.hasSearch = true →
      1 ≤ cfg.sstep ∧ cfg.smin ≤ cfg.smax ∧ cfg.smax ≤ cfg.seqLen ∧ cfg.wend ≤ 2 ^ 32) := by
    rw [wf3]
    cases cfg.hasSearch <;> simp
  have hwf1 : cfg.wf1 = true ↔ 2 ≤ cfg.W ∧ cfg.W ≤ 32 := decide_eq_true_iff
  simp only [wf, Bool.and_eq_true, hwf1, hwf2, hwf3]
  constructor
  · rintro ⟨⟨⟨h1, h2⟩, h3⟩, h4⟩
    exact ⟨h1, h2, h3, (hwf4 (by omega)).mp h4⟩
  · intro h
    exact ⟨⟨⟨h.wf1, h.wf2⟩, h.wf3⟩, (hwf4 h.pos).mpr h.wf4⟩

end Elaboration

/-- Settles O32: the one-walk check of WF4 decides cycle-completeness, which forces a tap at `W`. -/
theorem elaborationAcceptsTheWellFormed : Obligations.ElaborationAcceptsTheWellFormed := by
  unfold Obligations.ElaborationAcceptsTheWellFormed
  refine ⟨fun cfg => Config.wf_iff, fun cfg hcfg => if_pos (Config.wf_iff.mpr hcfg),
    fun cfg hno => if_neg (mt Config.wf_iff.mp hno), fun cfg hcfg hd => ?_⟩
  have hcc := hcfg.wf4 hd
  exact ⟨hcc.top_tap hcfg, hcc⟩

end Sys2Proof

namespace Sys2Proof.Machine

/-! # 10_state: the invariant, and what a run keeps -/

/-- Settles O27: the configuration is kept, and a step writes `fault` and `fcause` only as a reset or a fault entry. -/
theorem stepKeepsTheInvariant : Obligations.StepKeepsTheInvariant := by
  unfold Obligations.StepKeepsTheInvariant
  exact fun _ _ => State.Inv.step

/-- Settles O26: the reset values meet the invariant, and the checks at elaboration accept the sample configuration. -/
theorem invariantHoldsAtReset : Obligations.InvariantHoldsAtReset := by
  unfold Obligations.InvariantHoldsAtReset
  exact ⟨fun _ => State.resetOf_inv, State.resetOf_inv (Config.wf_iff.mp (by decide))⟩

/-- Settles O31: both tables are functions of the configuration, which a run keeps. -/
theorem noRunChangesConfigurationOrTables : Obligations.NoRunChangesConfigurationOrTables := by
  unfold Obligations.NoRunChangesConfigurationOrTables
  intro ins s t rs h
  have hcfg := runInputs_keeps_cfg h
  exact ⟨hcfg, fun i => by rw [hcfg], fun a => by rw [hcfg]⟩

/-! # 00_scope: one step -/

theorem step_idle {s : State} (h : s.inputs = []) : step s = .next s.idle := by simp [step, h]

/-- Settles O17, by the branch of `step` that runs a decoded word. -/
theorem stepRunsTheDecodedCommand : Obligations.StepRunsTheDecodedCommand := by
  unfold Obligations.StepRunsTheDecodedCommand
  exact fun _ _ _ _ => step_of_decode_ok

/-- Settles O58: the engine after an idle step has nothing presented either. -/
theorem anIdleEngineHoldsItsRegisters : Obligations.AnIdleEngineHoldsItsRegisters := by
  unfold Obligations.AnIdleEngineHoldsItsRegisters
  exact fun s h => ⟨step_idle h, step_idle (s := s.idle) h⟩

end Sys2Proof.Machine

namespace Sys2Proof

/-- The commands that write the register (10_state R15); every other command reads (41_engine, 43_search_index,
44_direct_index). -/
def Instr.writes : Instr → Bool
  | .init | .load _ | .inc | .dec => true
  | .get | .seqlen | .lkd | .lkdi _ | .lks | .lksi _ => false

theorem Instr.wf_iff {cfg : Config} {i : Instr} :
    i.wf cfg = true ↔ i.present cfg = true ∧ i.operandFits cfg = true := by
  rw [Instr.wf, Bool.and_eq_true]

end Sys2Proof

namespace Sys2Proof.Machine

/-! # The answer of a command, by whether the command is well-formed -/

section Answers

variable {cfg : Config} {i : Instr} {a : Arch cfg.W} {o : Arch cfg.W × Response}

theorem operand_isSome_iff_lt {W : Nat} {imm : Imm} : (operand W imm).isSome = true ↔ imm.toNat < 2 ^ W := by
  rw [Option.isSome_iff_ne_none, Ne, operand_eq_none_iff_le, not_le]

/-- A well-formed command on an engine that is not faulted writes the register and answers `(OK, 0)`, or answers alone. -/
theorem command_of_wf (hf : a.fault = false) (hwf : i.wf cfg = true) (h : command cfg i a = some o) :
    (i.writes = true ∧ ∃ v, o = (a.writeState v, okResponse 0#32)) ∨
      (i.writes = false ∧ ∃ r : Response, r.status ≠ .fault ∧ o = (a, r)) := by
  obtain ⟨hp, hw⟩ := Instr.wf_iff.mp hwf
  cases i <;> have hb := (Arch.dispatch_valid hf hp).symm.trans h
  case init => cases hb; exact .inl ⟨rfl, _, rfl⟩
  case load =>
    rw [Arch.withOperand_of_lt (operand_isSome_iff_lt.mp hw)] at hb
    cases hb; exact .inl ⟨rfl, _, rfl⟩
  case get => cases hb; exact .inr ⟨rfl, _, by simp [okResponse], rfl⟩
  case inc => cases hb; exact .inl ⟨rfl, _, rfl⟩
  case dec => cases hb; exact .inl ⟨rfl, _, rfl⟩
  case seqlen => cases hb; exact .inr ⟨rfl, _, by simp [okResponse], rfl⟩
  case lkd =>
    obtain ⟨r, hr, rfl⟩ := respondDirect_some hb
    exact .inr ⟨rfl, r, directLookup_status hr, rfl⟩
  case lkdi =>
    rw [Arch.withOperand_of_lt (operand_isSome_iff_lt.mp hw)] at hb
    obtain ⟨r, hr, rfl⟩ := respondDirect_some hb
    exact .inr ⟨rfl, r, directLookup_status hr, rfl⟩
  case lks => cases hb; exact .inr ⟨rfl, _, searchLookup_status _ _, rfl⟩
  case lksi =>
    rw [Arch.withOperand_of_lt (operand_isSome_iff_lt.mp hw)] at hb
    cases hb; exact .inr ⟨rfl, _, searchLookup_status _ _, rfl⟩

/-- A command that is not well-formed raises a fault. -/
theorem command_of_not_wf (hf : a.fault = false) (hwf : i.wf cfg = false) :
    ∃ c, command cfg i a = a.raiseFault c := by
  cases hp : i.present cfg with
  | false => exact ⟨_, command_of_not_present hf hp⟩
  | true => exact ⟨_, command_of_not_fits hf hp (by simpa [Instr.wf, hp] using hwf)⟩

end Answers

/-! ## A well-formed configuration answers every word (00_scope R13, 60_exceptions R111) -/

section Total

variable {W : Nat}

theorem Arch.dispatch_isSome {a : Arch W} {valid : Bool} {body : Answer W} (h : valid = true → body.isSome = true) :
    (a.dispatch valid body).isSome = true := by
  cases hf : a.fault with
  | true => rw [Arch.dispatch_faulted hf]; rfl
  | false =>
    cases hv : valid with
    | true => rw [Arch.dispatch_valid hf rfl, h hv]
    | false => rw [Arch.dispatch_invalid hf rfl]; rfl

theorem Arch.withOperand_isSome {a : Arch W} {imm : Imm} {k : BitVec W → Answer W}
    (h : ∀ v, (k v).isSome = true) : (a.withOperand imm k).isSome = true := by
  rcases Nat.lt_or_ge imm.toNat (2 ^ W) with hlt | hge
  · rw [Arch.withOperand_of_lt hlt, h]
  · rw [Arch.withOperand_of_ge hge]; rfl

variable {cfg : Config} {a : Arch cfg.W} (hcfg : cfg.WellFormed)
include hcfg

theorem respondDirect_isSome (hd : cfg.hasDirect = true) (q : BitVec cfg.W) : (respondDirect cfg a q).isSome = true := by
  by_cases hq : q = 0#cfg.W
  · rw [hq, respondDirect_of_some (Config.directLookup_zero hd)]; rfl
  · obtain ⟨p, hp, rfl⟩ := (hcfg.wf4 hd).exists_stateAt hcfg.pos hq
    rw [respondDirect_of_some (Config.directLookup_stateAt hd hcfg hp)]; rfl

theorem command_isSome (i : Instr) : (command cfg i a).isSome = true := by
  cases i <;> refine Arch.dispatch_isSome fun hv => ?_
  case load => exact Arch.withOperand_isSome fun _ => rfl
  case lkd => exact respondDirect_isSome hcfg hv _
  case lkdi => exact Arch.withOperand_isSome (respondDirect_isSome hcfg hv)
  case lksi => exact Arch.withOperand_isSome fun _ => rfl
  all_goals rfl

theorem exists_transition (w : CommandWord) : ∃ b r, transition cfg a w = some (b, r) := by
  have hsome : (transition cfg a w).isSome = true := by
    cases hd : decode w with
    | ok i => rw [transition_of_decode_ok hd, command_isSome hcfg]
    | error e =>
      rw [transition_of_decode_error hd]
      exact Arch.dispatch_isSome (by simp)
  obtain ⟨⟨b, r⟩, h⟩ := Option.isSome_iff_exists.mp hsome
  exact ⟨b, r, h⟩

end Total

/-- The answer is `FAULT` exactly when the triple is then faulted (60_exceptions R113, R114). -/
theorem Effect.status_eq_fault_iff {W : Nat} {a : Arch W} {o : Arch W × Response} (h : Effect a o) :
    o.2.status = .fault ↔ o.1.fault = true := by
  cases h with
  | refused hf => simp [faultResponse, hf]
  | wrote hf => simp [okResponse, hf]
  | answered hf r hr => simp [hf, hr]
  | faulted => simp [faultResponse]

/-- Settles O21: on a well-formed configuration the transition answers every word, and a step delivers its answer. -/
theorem everyCommandIsAnsweredOnce : Obligations.EveryCommandIsAnsweredOnce := by
  unfold Obligations.EveryCommandIsAnsweredOnce
  intro s w rest hcfg hin
  obtain ⟨a, r, h⟩ := exists_transition (a := s.arch) hcfg w
  exact ⟨{ s with arch := a, inputs := rest, rsp := some r }, r, by rw [step_command hin, h]; rfl, rfl, rfl,
    (transition_effect h).status_eq_fault_iff⟩

/-! # The frames of the commands -/

/-- What a meaning makes of an engine: a faulted one answers; a command that is not well-formed is a fault entry; of the
well-formed ones, those that write change the register and the answer, and the others the answer alone. -/
theorem exec_frame {s t : State} {i : Instr} (h : exec i s = .next t) :
    (s.arch.fault = true ∧ ∃ r, t = { s with rsp := r }) ∨
      (s.arch.fault = false ∧ i.wf s.cfg = false ∧
        ∃ c r, t = { s with arch.fault := true, arch.fcause := c, rsp := r }) ∨
      (s.arch.fault = false ∧ i.writes = true ∧ ∃ v r, t = { s with arch.state := v, rsp := r }) ∨
      (s.arch.fault = false ∧ i.writes = false ∧ ∃ r, t = { s with rsp := r }) := by
  rw [exec_eq_deliver] at h
  obtain ⟨a, r, ho, rfl⟩ := State.deliver_next h
  cases hf : s.arch.fault with
  | true =>
    rw [command_of_faulted hf] at ho
    cases ho
    exact .inl ⟨rfl, _, rfl⟩
  | false =>
    cases hwf : i.wf s.cfg with
    | false =>
      obtain ⟨c, hc⟩ := command_of_not_wf hf hwf
      rw [hc] at ho
      cases ho
      exact .inr (.inl ⟨rfl, rfl, _, _, rfl⟩)
    | true =>
      obtain ⟨hi, v, hv⟩ | ⟨hi, r', _, hr⟩ := command_of_wf hf hwf ho
      · cases hv
        exact .inr (.inr (.inl ⟨rfl, hi, _, _, rfl⟩))
      · cases hr
        exact .inr (.inr (.inr ⟨rfl, hi, _, rfl⟩))

/-- Of the commands that write, only a `LOAD` whose operand does not fit is not well-formed. -/
theorem eq_load_of_writes_not_wf {cfg : Config} {i : Instr} (hi : i.writes = true) (hwf : i.wf cfg = false) :
    ∃ imm, i = .load imm ∧ 2 ^ cfg.W ≤ imm.toNat := by
  cases i
  case load imm =>
    refine ⟨imm, rfl, operand_eq_none_iff_le.mp ?_⟩
    simpa [Instr.wf, Instr.present, Instr.operandFits] using hwf
  case init => cases hwf
  case inc => cases hwf
  case dec => cases hwf
  all_goals cases hi

/-- Settles O29: a fault entry of a command that writes is a `LOAD` whose operand does not fit. -/
theorem frameOfTheWritingCommands : Obligations.FrameOfTheWritingCommands := by
  unfold Obligations.FrameOfTheWritingCommands
  intro s t i hi h
  have hwrites : i.writes = true := by obtain rfl | ⟨_, rfl⟩ | rfl | rfl := hi <;> rfl
  obtain ⟨hf, hrefused⟩ | ⟨hf, hwf, c, r, hentry⟩ | ⟨hf, _, hwrote⟩ | ⟨_, hreads, _⟩ := exec_frame h
  · exact ⟨fun _ => hrefused, fun hf' => by simp [hf] at hf'⟩
  · obtain ⟨imm, rfl, hge⟩ := eq_load_of_writes_not_wf hwrites hwf
    exact ⟨fun hf' => by simp [hf] at hf', fun _ => .inr ⟨imm, c, r, rfl, hge, hentry⟩⟩
  · exact ⟨fun hf' => by simp [hf] at hf', fun _ => .inl hwrote⟩
  · simp [hwrites] at hreads

/-- Settles O30: a command that reads answers, or is a fault entry. -/
theorem frameOfTheReadingCommands : Obligations.FrameOfTheReadingCommands := by
  unfold Obligations.FrameOfTheReadingCommands
  intro s t i hi h
  have hreads : i.writes = false := by obtain rfl | rfl | rfl | ⟨_, rfl⟩ | rfl | ⟨_, rfl⟩ := hi <;> rfl
  obtain ⟨_, hrefused⟩ | hentry | ⟨_, hwrites, _⟩ | ⟨_, _, hanswered⟩ := exec_frame h
  · exact .inl hrefused
  · exact .inr hentry
  · simp [hreads] at hwrites
  · exact .inl hanswered

/-! # The immediate lookups (41_engine R80, 43_search_index R97, 44_direct_index R106) -/

/-- The response of a meaning is the response of its command. -/
theorem exec_rsp {s t : State} {i : Instr} (h : exec i s = .next t) :
    t.rsp = (command s.cfg i s.arch).map Prod.snd := by
  rw [exec_eq_deliver] at h
  obtain ⟨a, r, ho, rfl⟩ := State.deliver_next h
  rw [ho]
  rfl

section Immediate

variable {W : Nat} {a b : Arch W}

/-- The dispatcher's checks respond the same on any two triples that are not faulted. -/
theorem Arch.dispatch_response_congr {valid : Bool} {body body' : Answer W} (ha : a.fault = false) (hb : b.fault = false)
    (h : body.map Prod.snd = body'.map Prod.snd) :
    (a.dispatch valid body).map Prod.snd = (b.dispatch valid body').map Prod.snd := by
  cases valid with
  | true => rw [Arch.dispatch_valid ha rfl, Arch.dispatch_valid hb rfl, h]
  | false => rw [Arch.dispatch_invalid ha rfl, Arch.dispatch_invalid hb rfl]; rfl

theorem Arch.withOperand_response_congr {imm : Imm} {k k' : BitVec W → Answer W}
    (h : ∀ v, (k v).map Prod.snd = (k' v).map Prod.snd) :
    (a.withOperand imm k).map Prod.snd = (b.withOperand imm k').map Prod.snd := by
  rcases Nat.lt_or_ge imm.toNat (2 ^ W) with hlt | hge
  · rw [Arch.withOperand_of_lt hlt, Arch.withOperand_of_lt hlt, h]
  · rw [Arch.withOperand_of_ge hge, Arch.withOperand_of_ge hge]; rfl

theorem respondDirect_response {cfg : Config} (a : Arch cfg.W) (q : BitVec cfg.W) :
    (respondDirect cfg a q).map Prod.snd = directLookup cfg q := by
  cases h : directLookup cfg q with
  | none => simp [respondDirect, h]
  | some r => rw [respondDirect_of_some h]; rfl

/-- The immediate lookups and `SEQLEN` respond the same on any two triples that are not faulted. -/
theorem command_response_congr {cfg : Config} {a b : Arch cfg.W} {i : Instr} {imm : Imm}
    (hi : i = .lkdi imm ∨ i = .lksi imm ∨ i = .seqlen) (ha : a.fault = false) (hb : b.fault = false) :
    (command cfg i a).map Prod.snd = (command cfg i b).map Prod.snd := by
  obtain rfl | rfl | rfl := hi <;> refine Arch.dispatch_response_congr ha hb ?_
  · exact Arch.withOperand_response_congr fun v => by rw [respondDirect_response, respondDirect_response]
  · exact Arch.withOperand_response_congr fun _ => rfl
  · rfl

end Immediate

/-- Settles O12: the port shows the response of the command, which the three commands take from no register. -/
theorem immediateLookupsDoNotReadTheRegister : Obligations.ImmediateLookupsDoNotReadTheRegister := by
  unfold Obligations.ImmediateLookupsDoNotReadTheRegister
  intro s s' t t' imm i hi hcfg hf hf' h h'
  obtain ⟨cfg, a, ins, rsp⟩ := s
  obtain ⟨cfg', a', ins', rsp'⟩ := s'
  obtain rfl : cfg' = cfg := hcfg
  rw [exec_rsp h, exec_rsp h']
  exact command_response_congr hi hf' hf

/-! # Runs on the triple (70_reset_and_hazards R140) -/

section Triple

variable {cfg : Config} {a b : Arch cfg.W} {rs : List Response} {w : CommandWord} {rest : List Input}

theorem runTriple_command_eq_some_iff : runTriple cfg (.command w :: rest) a = some (b, rs) ↔
    ∃ a' r rs', transition cfg a w = some (a', r) ∧ runTriple cfg rest a' = some (b, rs') ∧ rs = r :: rs' := by
  rw [runTriple]
  cases transition cfg a w with
  | none => simp
  | some o => obtain ⟨a', r⟩ := o; simp [eq_comm]

/-- The simulation: on a well-formed configuration the triple runs to its end, and the host's state goes along. -/
theorem runInputs_of_runTriple {s : State} (hcfg : s.cfg.WellFormed) (ins : List Input) :
    ∃ a rs ins' rsp, runTriple s.cfg ins s.arch = some (a, rs) ∧
      runInputs ins s = .next ({ s with arch := a, inputs := ins', rsp := rsp }, rs) := by
  induction ins generalizing s with
  | nil => exact ⟨s.arch, [], s.inputs, s.rsp, rfl, rfl⟩
  | cons inp rest ih =>
    cases inp with
    | reset =>
      obtain ⟨a, rs, ins', rsp, htriple, hrun⟩ := ih (s := State.resetOf s.cfg) hcfg
      exact ⟨a, rs, ins', rsp, htriple, runInputs_cons_next.mpr ⟨_, rs, step_reset rfl, hrun, rfl⟩⟩
    | command w =>
      obtain ⟨b, r, hw⟩ := exists_transition (a := s.arch) hcfg w
      have hone : step (s.presented (.command w)) = .next { s with arch := b, inputs := [], rsp := some r } := by
        rw [step_command (w := w) (rest := []) rfl]
        simp only [State.presented, hw]
        rfl
      obtain ⟨a, rs, ins', rsp, htriple, hrun⟩ := ih (s := { s with arch := b, inputs := [], rsp := some r }) hcfg
      exact ⟨a, r :: rs, ins', rsp, runTriple_command_eq_some_iff.mpr ⟨b, r, rs, hw, htriple, rfl⟩,
        runInputs_cons_next.mpr ⟨_, rs, hone, hrun, rfl⟩⟩

end Triple

/-- Settles O59: a step delivers the transition, and a run of the host's state simulates the run on the triple. -/
theorem stepAndRunAreThoseOfTheTriple : Obligations.StepAndRunAreThoseOfTheTriple := by
  unfold Obligations.StepAndRunAreThoseOfTheTriple
  refine ⟨fun s w rest hcfg hin => ?_, fun s ins hcfg => ?_⟩
  · obtain ⟨a, r, h⟩ := exists_transition (a := s.arch) hcfg w
    exact ⟨a, r, h, by rw [step_command hin, h]; rfl⟩
  · obtain ⟨a, rs, ins', rsp, htriple, hrun⟩ := runInputs_of_runTriple hcfg ins
    exact ⟨a, rs, _, htriple, hrun, rfl⟩

/-! # 60_exceptions: safe runs (R117) -/

section Safe

variable {cfg : Config} {a b : Arch cfg.W}

/-- A command word raises no fault exactly when it is a well-formed command (70_reset_and_hazards R136). -/
theorem transition_faultless_iff {w : CommandWord} (ha : a.fault = false) {r : Response}
    (h : transition cfg a w = some (b, r)) :
    b.fault = false ↔ ∃ i, decode w = .ok i ∧ i.wf cfg = true := by
  cases hd : decode w with
  | error e =>
    rw [transition_of_decode_error hd, reservedCommand_accepting ha] at h
    cases h
    simp
  | ok i =>
    rw [transition_of_decode_ok hd] at h
    cases hwf : i.wf cfg with
    | false =>
      obtain ⟨c, hc⟩ := command_of_not_wf ha hwf
      rw [hc] at h
      cases h
      simp [hwf]
    | true =>
      obtain ⟨_, v, hv⟩ | ⟨_, r', _, hr⟩ := command_of_wf ha hwf h
      · cases hv; simp [hwf, ha]
      · cases hr; simp [hwf, ha]

/-- From a triple that is not faulted, no response of a run is `FAULT` and its end is not faulted exactly when every word
is a well-formed command. -/
theorem runTriple_faultless_iff {ins : List Input} {rs : List Response} (ha : a.fault = false)
    (h : runTriple cfg ins a = some (b, rs)) :
    (b.fault = false ∧ ∀ r ∈ rs, r.status ≠ .fault) ↔
      ∀ w, .command w ∈ ins → ∃ i, decode w = .ok i ∧ i.wf cfg = true := by
  induction ins generalizing a rs with
  | nil => cases h; simp [ha]
  | cons inp rest ih =>
    cases inp with
    | reset => simpa using ih rfl h
    | command w =>
      obtain ⟨a', r, rs', hw, hrest, rfl⟩ := runTriple_command_eq_some_iff.mp h
      have hhead : r.status ≠ .fault ↔ a'.fault = false := by
        rw [Ne, (transition_effect hw).status_eq_fault_iff, Bool.not_eq_true]
      simp only [List.mem_cons, Input.command.injEq, forall_eq_or_imp]
      rw [and_left_comm, hhead, ← transition_faultless_iff ha hw]
      exact and_congr_right fun ha' => ih ha' hrest

end Safe

/-- A safe run is one whose run on the triple starts and ends not faulted, without a `FAULT` response. -/
theorem safeRun_iff {s t : State} {ins : List Input} {rs : List Response} (h : runInputs ins s = .next (t, rs)) :
    SafeRun ins s ↔ s.arch.fault = false ∧ t.arch.fault = false ∧ ∀ r ∈ rs, r.status ≠ .fault := by
  simp [SafeRun, State.Safe, h]

/-- Settles O60: the run on the triple has no `FAULT` response and no faulted end exactly for well-formed commands. -/
theorem safeRunsAreTheRunsOfFaultlessCommands : Obligations.SafeRunsAreTheRunsOfFaultlessCommands := by
  unfold Obligations.SafeRunsAreTheRunsOfFaultlessCommands
  refine ⟨fun s ins hcfg => ?_, fun s ins hf hsafe => ?_, fun s t ins rs hsafe hrun => ?_⟩
  · obtain ⟨a, rs, ins', rsp, htriple, hrun⟩ := runInputs_of_runTriple hcfg ins
    rw [safeRun_iff hrun]
    exact and_congr_right fun hf => runTriple_faultless_iff hf htriple
  · have hstart : s.arch.fault = false := hsafe.1
    simp [hf] at hstart
  · exact ((safeRun_iff hrun).mp hsafe).2.1

end Sys2Proof.Machine
